-- ==== Sys2Proof/Word.lean ====
section
/-! DEFINITION. The widths of the block (00_scope.md R5, R7) and the six-channel record. -/

namespace Sys2Proof

/-- A command word, and a word of the read port (R7). -/
abbrev Word := BitVec 32

/-- A binary32 bit pattern: sign in bit 31, exponent in bits 30 to 23, fraction in bits 22 to 0 (R7, R35). -/
abbrev F32 := BitVec 32

/-- A sample of the buffer, a two's-complement value of 16 bits (R7, R16). -/
abbrev Sample := BitVec 16

/-- A timestamp of 64 bits, signed (R7, R21). -/
abbrev Timestamp := BitVec 64

/-- A fill index of 10 bits (R7, R17). -/
abbrev FillIndex := BitVec 10

/-- A word address of the read port (R7, R30). -/
abbrev ReadAddr := BitVec 12

/-- A channel id of a record (R7, R51). -/
abbrev ChannelId := BitVec 4

/-- A channel row index, 0 to 5; NCH = 6 is fixed (R5). -/
abbrev Chan := Fin 6

/-- Six like things, one for each channel row (R5). -/
structure PerChannel (α : Type) where
  c0 : α
  c1 : α
  c2 : α
  c3 : α
  c4 : α
  c5 : α
  deriving DecidableEq, Repr

end Sys2Proof
end

