-- ==== Sys2Proof/Config.lean ====
section
/-! DEFINITION. The build parameters of 00_scope.md R6 as plain data, and the model's one free value: the bit
pattern of a NaN that a filter step produces (92_eei_decisions.md D34). -/

namespace Sys2Proof

/-- The coefficients of one biquad section, five binary32 values (R6, R59). -/
structure Coeffs where
  b0 : F32
  b1 : F32
  b2 : F32
  a1 : F32
  a2 : F32
  deriving DecidableEq, Repr

/-- The build parameters (R6). No command writes them. -/
structure Config where
  /-- SPC, samples per channel per packet. -/
  spc : Nat
  /-- PATTERN[k], the channel id whose records go to row k (R68). -/
  pattern : PerChannel ChannelId
  /-- FD_EN, the fractional-delay filter is enabled. -/
  fdEn : Bool
  /-- LP_EN, the low-pass is enabled. -/
  lpEn : Bool
  /-- LP1, the coefficients of biquad section 1. -/
  lp1 : Coeffs
  /-- LP2, the coefficients of biquad section 2. -/
  lp2 : Coeffs
  /-- FD_C, the all-pass coefficient. -/
  fdC : F32
  /-- TPS, timestamp ticks per second. -/
  tps : Nat
  deriving DecidableEq, Repr

/-- The test configuration TC of 95_test_vectors.md section 1. DESIGN CHOICE, unsafe (log 1): the spec leaves every
parameter open; these are its test values and not a device's. -/
def Config.reference : Config where
  spc := 4
  pattern := ⟨0, 3, 4, 5, 6, 7⟩
  fdEn := true
  lpEn := true
  lp1 := ⟨0x3E800000, 0x3F000000, 0x3E800000, 0xBF000000, 0x3E000000⟩  -- 0.25, 0.5, 0.25, -0.5, 0.125
  lp2 := ⟨0x3F000000, 0x3F000000, 0x00000000, 0x3E800000, 0x00000000⟩  -- 0.5, 0.5, 0.0, 0.25, 0.0
  fdC := 0x3F000000                                                    -- 0.5
  tps := 1000000

/-- The three filter steps whose result a filter register keeps (R59 to R61). -/
inductive Stage where
  | lp1
  | lp2
  | fd
  deriving DecidableEq, Repr

/-- Where in a command a NaN is produced: the step, the channel row and the sample index of the pass. -/
structure NanSite where
  stage : Stage
  ch : Chan
  index : Nat
  deriving DecidableEq, Repr

/-- FREE VALUE (93_implementation_defined.md U10, log 5): the sign and the fraction of the NaN that a filter step
produces, for the command number `State.draws` and the place in that command. Nothing constrains it. -/
opaque Config.nanPattern : Nat → NanSite → BitVec 24

end Sys2Proof
end

