-- ==== Sys2Proof/Syntax.lean ====
section
/-! DEFINITION. The block's command set, one constructor for each row of the opcode table (30_encoding.md R52). -/

namespace Sys2Proof

/-- A command with its operand fields as the word holds them (R48 to R51). Which channel operands are legal is
`Instr.wf` (R53). -/
inductive Instr where
  /-- NOP (R80) -/
  | nop
  /-- REC rid, rval (R69) -/
  | record (rid : ChannelId) (rval : BitVec 12)
  /-- GAPFILL (R70) -/
  | gapfill
  /-- FD ch (R66) -/
  | fd (ch : BitVec 4)
  /-- LP ch (R65) -/
  | lp (ch : BitVec 4)
  /-- FILTER (R67) -/
  | filter
  /-- RATE (R74) -/
  | rate
  /-- PUBLISH (R77) -/
  | publish
  /-- CYCLE (R78) -/
  | cycle
  /-- FACK (R81) -/
  | fack
  /-- RACK (R82) -/
  | rack
  /-- START (R83) -/
  | start
  /-- RESET (R84) -/
  | reset
  deriving DecidableEq, Repr

end Sys2Proof
end

