-- ==== Sys2Proof/WellFormed.lean ====
section
/-! DEFINITION. Which build parameters R6 admits, and which operands R53 admits under them. -/

namespace Sys2Proof

/-- A binary32 pattern that is neither an infinity nor a NaN. -/
def F32.isFinite (f : F32) : Bool := f.extractLsb' 23 8 != 0xFF#8

/-- Five finite coefficients (R6). -/
def Coeffs.wf (c : Coeffs) : Bool :=
  F32.isFinite c.b0 && F32.isFinite c.b1 && F32.isFinite c.b2 && F32.isFinite c.a1 && F32.isFinite c.a2

/-- The bounds of SPC and TPS (R6). -/
def Config.sizesOk (cfg : Config) : Bool :=
  1 ≤ cfg.spc && cfg.spc ≤ 512 && 1 ≤ cfg.tps

/-- The constraints of R6 on every parameter. -/
def Config.wf (cfg : Config) : Bool :=
  cfg.sizesOk && cfg.lp1.wf && cfg.lp2.wf && F32.isFinite cfg.fdC

/-- LP runs on rows 0 to 5 of a build with LP_EN = 1 (R53 condition 5). -/
def lpOperandOk (cfg : Config) (ch : BitVec 4) : Bool := cfg.lpEn && ch ≤ 5#4

/-- FD runs on rows 1, 3 and 5 of a build with FD_EN = 1 (R53 condition 6). -/
def fdOperandOk (cfg : Config) (ch : BitVec 4) : Bool := cfg.fdEn && (ch == 1#4 || ch == 3#4 || ch == 5#4)

/-- The operands are legal under the build parameters (R53 conditions 5 and 6); a command without a channel operand
is legal as it stands. -/
def Instr.wf (cfg : Config) : Instr → Bool
  | .lp ch => lpOperandOk cfg ch
  | .fd ch => fdOperandOk cfg ch
  | .nop => true
  | .record _ _ => true
  | .gapfill => true
  | .filter => true
  | .rate => true
  | .publish => true
  | .cycle => true
  | .fack => true
  | .rack => true
  | .start => true
  | .reset => true

end Sys2Proof
end

