-- ==== Sys2Proof/Decode.lean ====
section
/-! DEFINITION. Command decode (30_encoding.md R47 to R55), total over the 2^32 words, and the encoder of R56. -/

namespace Sys2Proof

/-- Why a word is illegal: the six conditions of R53, in its order. The block does not tell them apart (R88); the
names serve the reader. -/
inductive IllegalCause where
  /-- condition 1: OP is 0xB, 0xD or 0xE -/
  | opcode
  /-- condition 2: format N and w[27:0] is not 0 -/
  | formatN
  /-- condition 3: format C and w[23:0] is not 0 -/
  | formatC
  /-- condition 4: REC and w[27:16] is not 0 -/
  | formatR
  /-- condition 5: LP with LP_EN = 0 or CH > 5 -/
  | lpOperand
  /-- condition 6: FD with FD_EN = 0 or CH not 1, 3 or 5 -/
  | fdOperand
  deriving DecidableEq, Repr

/-- OP = w[31:28] (R48). -/
def opField (w : Word) : BitVec 4 := w.extractLsb' 28 4
/-- CH = w[27:24] (R48). -/
def chField (w : Word) : BitVec 4 := w.extractLsb' 24 4
/-- RID = w[15:12] (R48). -/
def ridField (w : Word) : ChannelId := w.extractLsb' 12 4
/-- RVAL = w[11:0] (R48). -/
def rvalField (w : Word) : BitVec 12 := w.extractLsb' 0 12
/-- The bits of format N that must be 0, w[27:0] (R49). -/
def zeroN (w : Word) : BitVec 28 := w.extractLsb' 0 28
/-- The bits of format C that must be 0, w[23:0] (R50). -/
def zeroC (w : Word) : BitVec 24 := w.extractLsb' 0 24
/-- The bits of format R that must be 0, w[27:16] (R51). -/
def zeroR (w : Word) : BitVec 12 := w.extractLsb' 16 12

/-- A command of format N (R49). -/
def readFormatN (w : Word) (i : Instr) : Except IllegalCause Instr :=
  if zeroN w = 0#28 then .ok i else .error .formatN

/-- A command of format C (R50). -/
def readFormatC (w : Word) (i : BitVec 4 → Instr) : Except IllegalCause Instr :=
  if zeroC w = 0#24 then .ok (i (chField w)) else .error .formatC

/-- A command of format R (R51). -/
def readFormatR (w : Word) : Except IllegalCause Instr :=
  if zeroR w = 0#12 then .ok (.record (ridField w) (rvalField w)) else .error .formatR

/-- The fields of a word by the opcode map (R52): conditions 1 to 4 of R53, which no parameter touches (R55). -/
def decodeFields (w : Word) : Except IllegalCause Instr :=
  match (opField w).toNat with
  | 0x0 => readFormatN w .nop
  | 0x1 => readFormatR w
  | 0x2 => readFormatN w .gapfill
  | 0x3 => readFormatC w .fd
  | 0x4 => readFormatC w .lp
  | 0x5 => readFormatN w .filter
  | 0x6 => readFormatN w .rate
  | 0x7 => readFormatN w .publish
  | 0x8 => readFormatN w .cycle
  | 0x9 => readFormatN w .fack
  | 0xA => readFormatN w .rack
  | 0xC => readFormatN w .start
  | 0xF => readFormatN w .reset
  | _ => .error .opcode

/-- The operand checks under the build parameters: conditions 5 and 6 of R53. -/
def checkOperands (cfg : Config) (i : Instr) : Except IllegalCause Instr :=
  if i.wf cfg then .ok i
  else match i with
    | .lp _ => .error .lpOperand
    | _ => .error .fdOperand

/-- `decode` of R54. An error is the spec's `raise IllegalCommand(w)`. -/
def decode (cfg : Config) (w : Word) : Except IllegalCause Instr :=
  match decodeFields w with
  | .ok i => checkOperands cfg i
  | .error e => .error e

/-- The word of a command (R52, R56). -/
def encode : Instr → Word
  | .nop => 0x00000000#32
  | .record rid rval => 0x1#4 ++ 0#12 ++ rid ++ rval
  | .gapfill => 0x20000000#32
  | .fd ch => 0x3#4 ++ ch ++ 0#24
  | .lp ch => 0x4#4 ++ ch ++ 0#24
  | .filter => 0x50000000#32
  | .rate => 0x60000000#32
  | .publish => 0x70000000#32
  | .cycle => 0x80000000#32
  | .fack => 0x90000000#32
  | .rack => 0xA0000000#32
  | .start => 0xC0000000#32
  | .reset => 0xF0000000#32

/-- The command word whose low `nbits` bits are those of `w` and whose other bits are 0. Every command is one word of
32 bits (R47). -/
def tableWord (nbits w : Nat) : Word := BitVec.ofNat 32 (w % 2 ^ nbits)

/-- The command whose fields the decoder reads from a word of the opcode table. The operand checks of R53 (conditions
5 and 6) need the build parameters and are `decode`'s; `exec` of an illegal operand is IllegalCommand (R65, R66), so a
step is `exec` of this command in either case (log 7). -/
def decodeTableWord (nbits w : Nat) : Option Instr :=
  match decodeFields (tableWord nbits w) with
  | .ok i => some i
  | .error _ => none

end Sys2Proof
end

