-- ==== Sys2Proof/Machine/Float32.lean ====
section
/-! DEFINITION. Binary32 arithmetic (00_scope.md R10): exact on the integers, narrowed once per operation. Every
finite binary32 value is a whole number of units of 2^-149, so a sum is an integer sum and a product an integer
product. -/

namespace Sys2Proof.Machine

/-- The number a binary32 pattern stands for. A NaN carries no pattern here: no operation's result depends on it
(log 6). `fin neg u` is the number u × 2^-149, negated where `neg` is true, with the sign of a zero kept. -/
inductive FVal where
  | nan
  | inf (neg : Bool)
  | fin (neg : Bool) (units : Nat)
  deriving DecidableEq, Repr

/-- Units in 1.0, which is 2^149. -/
def unitsPerOne : Nat := 2 ^ 149

/-- Units in 2^128, the first power of two past the finite values. -/
def overflowUnits : Nat := 2 ^ 128 * unitsPerOne

/-- The number of a bit pattern (IEEE 754 binary32). -/
def FVal.ofBits (b : F32) : FVal :=
  let neg := b.getLsbD 31
  let e := (b.extractLsb' 23 8).toNat
  let f := (b.extractLsb' 0 23).toNat
  if e = 255 then
    if f = 0 then .inf neg else .nan
  else if e = 0 then .fin neg f
  else .fin neg ((2 ^ 23 + f) * 2 ^ (e - 1))

/-- The quotient n / d rounded to an integer, ties to even. -/
def divNearestEven (n d : Nat) : Nat :=
  let q := n / d
  let r := n % d
  if 2 * r < d then q
  else if d < 2 * r then q + 1
  else q + q % 2

/-- How far a number of n / d units is above the 24 bits of a significand: the exponent of its last place, in units. -/
def lastPlace (n d : Nat) : Nat := Nat.log2 (n / d) - 23

/-- n / d units rounded to 24 significant bits, to nearest, ties to even, with the exponent unbounded above and
subnormals kept. -/
def roundUnits (n d : Nat) : Nat :=
  divNearestEven n (d * 2 ^ lastPlace n d) * 2 ^ lastPlace n d

/-- The binary32 value nearest to n / d units (`rnd32` of R10), overflowing to an infinity. -/
def FVal.ofExact (neg : Bool) (n d : Nat) : FVal :=
  if overflowUnits ≤ roundUnits n d then .inf neg else .fin neg (roundUnits n d)

/-- The sign bit of a pattern. -/
def signBit (neg : Bool) : BitVec 1 := BitVec.ofBool neg

/-- The pattern of a finite binary32 value of `u` units. -/
def finBits (neg : Bool) (u : Nat) : F32 :=
  signBit neg ++ BitVec.ofNat 31 (lastPlace u 1 * 2 ^ 23 + u / 2 ^ lastPlace u 1)

/-- The pattern of an infinity. -/
def infBits (neg : Bool) : F32 := signBit neg ++ 0xFF#8 ++ 0#23

/-- A NaN pattern from 24 free bits: a sign and a fraction, 1 where the fraction is 0, so that every NaN pattern is
reached and nothing else is (log 5). -/
def nanBits (p : BitVec 24) : F32 :=
  let f := p.extractLsb' 0 23
  p.extractLsb' 23 1 ++ 0xFF#8 ++ (if f = 0#23 then 1#23 else f)

/-- The pattern that a filter step which produces a NaN stores: any NaN (92_eei_decisions.md D34). -/
def freeNan (draw : Nat) (site : NanSite) : F32 := nanBits (Config.nanPattern draw site)

/-- The pattern of a result; a NaN takes the pattern it is given. -/
def FVal.toBits (nan : F32) : FVal → F32
  | .nan => nan
  | .inf neg => infBits neg
  | .fin neg u => finBits neg u

/-- The number with its sign as an integer of units. -/
def signedUnits (neg : Bool) (u : Nat) : Int := if neg then -(u : Int) else u

/-- `fadd` (R10). An exact zero is +0.0 unless both operands are negative (IEEE 754, round to nearest). -/
def fadd : FVal → FVal → FVal
  | .nan, _ => .nan
  | _, .nan => .nan
  | .inf a, .inf b => if a = b then .inf a else .nan
  | .inf a, .fin _ _ => .inf a
  | .fin _ _, .inf b => .inf b
  | .fin a m, .fin b n =>
    let z := signedUnits a m + signedUnits b n
    if z = 0 then .fin (a && b) 0
    else FVal.ofExact (decide (z < 0)) z.natAbs 1

/-- The number with its sign turned. -/
def fneg : FVal → FVal
  | .nan => .nan
  | .inf a => .inf (!a)
  | .fin a m => .fin (!a) m

/-- `fsub` (R10). -/
def fsub (a b : FVal) : FVal := fadd a (fneg b)

/-- `fmul` (R10). The exact product of m and n units is m × n / 2^149 units. -/
def fmul : FVal → FVal → FVal
  | .nan, _ => .nan
  | _, .nan => .nan
  | .inf a, .inf b => .inf (a != b)
  | .inf a, .fin b n => if n = 0 then .nan else .inf (a != b)
  | .fin a m, .inf b => if m = 0 then .nan else .inf (a != b)
  | .fin a m, .fin b n => FVal.ofExact (a != b) (m * n) unitsPerOne

/-- The pattern of `f32(n)` for an integer n (R10). It is never a NaN. -/
def f32OfInt (n : Int) : F32 :=
  (FVal.ofExact (decide (n < 0)) (n.natAbs * unitsPerOne) 1).toBits 0

/-- The pattern of `rnd32(n / d)` for an exact quotient (R10). It is never a NaN. -/
def rnd32 (n d : Nat) : F32 := (FVal.ofExact false (n * unitsPerOne) d).toBits 0

/-- `i16_to_f32` (R57). -/
def i16ToF32 (v : Sample) : F32 := f32OfInt v.toInt

/-- Clamp to the 16-bit signed range, then truncate toward zero (R58). -/
def fvalToI16 : FVal → Sample
  | .nan => 0
  | .inf false => 32767#16
  | .inf true => BitVec.ofInt 16 (-32768)
  | .fin false u =>
    if 32767 * unitsPerOne < u then 32767#16 else BitVec.ofNat 16 (u / unitsPerOne)
  | .fin true u =>
    if 32768 * unitsPerOne < u then BitVec.ofInt 16 (-32768)
    else BitVec.ofInt 16 (-((u / unitsPerOne : Nat) : Int))

/-- `f32_to_i16` (R58). -/
def f32ToI16 (f : F32) : Sample := fvalToI16 (FVal.ofBits f)

end Sys2Proof.Machine
end

