-- ==== Sys2Proof/Machine/Channels.lean ====
section
/-! DEFINITION. Reading, writing and mapping the six-channel record (00_scope.md R5). -/

namespace Sys2Proof.PerChannel

/-- The thing of one channel row. -/
def get {α : Type} (p : PerChannel α) (ch : Chan) : α :=
  match ch with
  | 0 => p.c0
  | 1 => p.c1
  | 2 => p.c2
  | 3 => p.c3
  | 4 => p.c4
  | 5 => p.c5

/-- The record with the thing of one channel row replaced. -/
def set {α : Type} (p : PerChannel α) (ch : Chan) (v : α) : PerChannel α :=
  match ch with
  | 0 => { p with c0 := v }
  | 1 => { p with c1 := v }
  | 2 => { p with c2 := v }
  | 3 => { p with c3 := v }
  | 4 => { p with c4 := v }
  | 5 => { p with c5 := v }

/-- The same function of the row index at every row. A loop `for ch in 0 .. 5` whose body touches row ch alone. -/
def map {α β : Type} (f : Chan → α → β) (p : PerChannel α) : PerChannel β :=
  ⟨f 0 p.c0, f 1 p.c1, f 2 p.c2, f 3 p.c3, f 4 p.c4, f 5 p.c5⟩

/-- The same thing at every row. -/
def fill {α : Type} (v : α) : PerChannel α := ⟨v, v, v, v, v, v⟩

/-- The rows in the order of a loop `for ch in 0 .. 5`. -/
def order : List Chan := [0, 1, 2, 3, 4, 5]

end Sys2Proof.PerChannel
end

