-- ==== Sys2Proof/Machine/State.lean ====
section
/-! DEFINITION. The state of the block (10_state.md R15 to R28), as plain data: what the spec gives the block, the
build parameters it runs under, and the model's own four fields (inputs not yet taken, the NOW pin, the draw counter and
the record of R88). -/

namespace Sys2Proof.Machine

/-- The delay lines of one biquad section, four binary32 values (R18). -/
structure Biquad where
  x1 : F32
  x2 : F32
  y1 : F32
  y2 : F32
  deriving DecidableEq, Repr

/-- LP[ch]: the two sections of the low-pass cascade (R18). -/
structure Cascade where
  s1 : Biquad
  s2 : Biquad
  deriving DecidableEq, Repr

/-- FD[ch]: one previous input and one previous output (R19). -/
structure AllPass where
  x1 : F32
  y1 : F32
  deriving DecidableEq, Repr

/-- All state of one channel row: S[ch], FILL[ch], LP[ch], FD[ch] (R16 to R19). -/
structure Channel where
  /-- S[ch][0], S[ch][1], …: the row holds SPC samples (`State.wf` in Safety.lean). -/
  row : List Sample
  fill : FillIndex
  lp : Cascade
  fd : AllPass
  deriving DecidableEq, Repr

/-- What reaches the block from outside (R2, R27, R29, R85, R86, R98). -/
inductive Event where
  /-- A 32-bit word written to the command port (R47). -/
  | command (w : Word)
  /-- A write to the command port of another width; no part of the interface (R36). -/
  | partialWrite (nbits : Nat) (value : Nat)
  /-- A pulse on FRAME_READY (R85). -/
  | frameReady
  /-- The environment drives this value on NOW from here on (R86). -/
  | timestamp (t : Timestamp)
  /-- Power-on reset, also after a power loss (R98, R99). -/
  | powerOn
  deriving DecidableEq, Repr

/-- Why a step faults. Nothing raises a fault: no data condition is an error (R89), a read never faults (R32), and an
illegal command is a next state with ERR_ILL = 1 (R88, log 4). -/
inductive Fault where
  deriving DecidableEq, Repr

/-- Why a step is refused. -/
inductive Refusal where
  /-- An instruction that has no meaning yet. No arm of `exec` raises it: all thirteen have one. Safe. -/
  | notModelled (mnemonic : String)
  /-- Raised by `step` on a command-port write that is not 32 bits wide: "a model refuses it" (R36, U15). Safe. -/
  | commandWidth (nbits : Nat)
  deriving DecidableEq, Repr

/-- The machine. -/
structure State where
  /-- The build parameters (R6); no command changes them. -/
  cfg : Config
  /-- S, FILL, LP and FD, by channel row (R16 to R19). -/
  chans : PerChannel Channel
  /-- RATE, a binary32 value (R21). -/
  rate : F32
  /-- RATE_VALID (R21). -/
  rateValid : Bool
  /-- RATE_SEEDED (R21). -/
  rateSeeded : Bool
  /-- PREV_TS (R21). -/
  prevTs : Timestamp
  /-- FRAME_PENDING (R22). -/
  framePending : Bool
  /-- READY (R23). -/
  ready : Bool
  /-- ERR_ILL (R24). -/
  errIll : Bool
  /-- The model's own: the level on the NOW input (R27, R86, log 2). -/
  now : Timestamp
  /-- The model's own: the inputs not yet taken, first one first, in the serial order of R29 (log 3). -/
  events : List Event
  /-- The model's own: command words taken so far, the index of the NaN draws (D34, log 5). -/
  draws : Nat
  /-- The model's own: the "recorded fault bit that no later step clears" of R88 (log 4). -/
  everIll : Bool
  deriving DecidableEq, Repr

/-- A section with zeroed delay lines, every value +0.0 (R18). -/
def Biquad.zero : Biquad := ⟨0, 0, 0, 0⟩

/-- A cascade with zeroed delay lines (R18). -/
def Cascade.zero : Cascade := ⟨Biquad.zero, Biquad.zero⟩

/-- Zeroed fractional-delay state (R19). -/
def AllPass.zero : AllPass := ⟨0, 0⟩

/-- A channel row at reset: SPC samples of 0, FILL 0, filter state +0.0 (R28). -/
def Channel.zero (spc : Nat) : Channel :=
  ⟨List.replicate spc 0, 0, Cascade.zero, AllPass.zero⟩

/-- The state after power-on reset of a build with these parameters (R28, R99). -/
def State.resetWith (cfg : Config) : State where
  cfg := cfg
  chans := PerChannel.fill (Channel.zero cfg.spc)
  rate := 0
  rateValid := false
  rateSeeded := false
  prevTs := 0
  framePending := false
  ready := false
  errIll := false
  now := 0
  events := []
  draws := 0
  everIll := false

/-- The state right after reset. Its parameters are the test configuration TC (DESIGN CHOICE, log 1). -/
def State.reset : State := State.resetWith Config.reference

end Sys2Proof.Machine
end

