-- ==== Sys2Proof/Machine/Ops.lean ====
section
/-! DEFINITION. The named operations over the block's state: rows and samples (10_state.md R16, R17), the clears of
START and RESET (R28, 43_control.md R83, R84), and taking the one exception (60_exceptions.md R88). -/

namespace Sys2Proof.Machine

/-- All state of one channel row. -/
def State.chan (s : State) (ch : Chan) : Channel := s.chans.get ch

/-- The state of one channel row written. -/
def State.setChan (s : State) (ch : Chan) (c : Channel) : State := { s with chans := s.chans.set ch c }

/-- A loop over the rows whose body touches its own row alone. -/
def State.mapChans (s : State) (f : Chan → Channel → Channel) : State := { s with chans := s.chans.map f }

/-- S[ch][i] of a row (R16). -/
def rowAt (row : List Sample) (i : Nat) : Sample := row.getD i 0

/-- S[ch][i] (R11, R16). -/
def State.sample (s : State) (ch : Chan) (i : Nat) : Sample := rowAt (s.chan ch).row i

/-- `S[ch][FILL[ch]] <- v ; FILL[ch] <- FILL[ch] + 1` (R69). -/
def Channel.append (c : Channel) (v : Sample) : Channel :=
  { c with row := c.row.set c.fill.toNat v, fill := c.fill + 1 }

/-- `FILL[ch] <- 0` for every row (R77, R83). -/
def State.clearFills (s : State) : State := s.mapChans fun _ c => { c with fill := 0 }

/-- `RATE <- +0.0 ; RATE_VALID <- 0 ; RATE_SEEDED <- 0 ; PREV_TS <- 0` (R83). -/
def State.clearRate (s : State) : State :=
  { s with rate := 0, rateValid := false, rateSeeded := false, prevTs := 0 }

/-- Every item of the block's state at its value in R28. The parameters stay (R84), and so do the model's own fields:
the inputs are not the block's state and the record of R88 is never cleared (log 4). -/
def State.resetBlock (s : State) : State :=
  { State.resetWith s.cfg with now := s.now, events := s.events, draws := s.draws, everIll := s.everIll }

/-- TAKING THE EXCEPTION IllegalCommand (R88): `ERR_ILL <- 1` and nothing else of the block. It saves nothing, changes
no mode and goes nowhere, and there is no return from it (R90). The record of R88 is set beside it (log 4). -/
def State.illegalCommand (s : State) : State := { s with errIll := true, everIll := true }

end Sys2Proof.Machine
end

