-- ==== Sys2Proof/Machine/Operands.lean ====
section
/-! DEFINITION. The operand forms: the channel row of CH (30_encoding.md R50, R53), the row of a record's channel id
(42_acquisition.md R68) and a record's value (R51). -/

namespace Sys2Proof.Machine

/-- The channel row that CH names, or none where CH > 5 (R53). -/
def rowOfCh (ch : BitVec 4) : Option Chan :=
  if h : ch.toNat < 6 then some ⟨ch.toNat, h⟩ else none

/-- The row of an LP command, where it is legal (R53 condition 5). -/
def lpRowOf (cfg : Config) (ch : BitVec 4) : Option Chan :=
  if lpOperandOk cfg ch then rowOfCh ch else none

/-- The row of an FD command, where it is legal (R53 condition 6). -/
def fdRowOf (cfg : Config) (ch : BitVec 4) : Option Chan :=
  if fdOperandOk cfg ch then rowOfCh ch else none

/-- The rows of the fractional delay: 1, 3 and 5 (R67). -/
def isFdRow (ch : Chan) : Bool := ch.val == 1 || ch.val == 3 || ch.val == 5

/-- `match` of R68 over a list of rows, first one first. -/
def firstMatch (pattern : PerChannel ChannelId) (rid : ChannelId) : List Chan → Option Chan
  | [] => none
  | k :: ks => if pattern.get k = rid then some k else firstMatch pattern rid ks

/-- The row of a record: linear search of the pattern, first entry first (R68). -/
def matchRow (pattern : PerChannel ChannelId) (rid : ChannelId) : Option Chan :=
  firstMatch pattern rid PerChannel.order

/-- `zext_16(RVAL)` (R51). -/
def recordSample (rval : BitVec 12) : Sample := rval.zeroExtend 16

end Sys2Proof.Machine
end

