-- ==== Sys2Proof/Machine/Filters.lean ====
section
/-! DEFINITION. The filter steps and passes (41_filters.md R59 to R63) and the commands LP, FD and FILTER (R65 to
R67). -/

namespace Sys2Proof.Machine

/-- `biquad_step` (R59): the delay lines after the step, and its output. `nan` is the pattern a NaN output takes. -/
def biquadStep (nan : F32) (c : Coeffs) (st : Biquad) (x : F32) : Biquad × F32 :=
  let t0 := fmul (.ofBits c.b0) (.ofBits x)
  let t1 := fadd t0 (fmul (.ofBits c.b1) (.ofBits st.x1))
  let t2 := fadd t1 (fmul (.ofBits c.b2) (.ofBits st.x2))
  let t3 := fsub t2 (fmul (.ofBits c.a1) (.ofBits st.y1))
  let y := (fsub t3 (fmul (.ofBits c.a2) (.ofBits st.y2))).toBits nan
  (⟨x, st.x1, y, st.y1⟩, y)

/-- `fd_step` (R61), on the state of one row. -/
def fdStep (nan : F32) (c : F32) (st : AllPass) (x : F32) : AllPass × F32 :=
  let t := fadd (fmul (.ofBits c) (.ofBits x)) (.ofBits st.x1)
  let y := (fsub t (fmul (.ofBits c) (.ofBits st.y1))).toBits nan
  (⟨x, y⟩, y)

/-- `lp_step` (R60) on the state of row ch, at sample i of the pass: the output of section 1 feeds section 2. -/
def lpStep (cfg : Config) (draw : Nat) (ch : Chan) (i : Nat) (st : Cascade) (x : F32) : Cascade × F32 :=
  let r1 := biquadStep (freeNan draw ⟨.lp1, ch, i⟩) cfg.lp1 st.s1 x
  let r2 := biquadStep (freeNan draw ⟨.lp2, ch, i⟩) cfg.lp2 st.s2 r1.2
  (⟨r1.1, r2.1⟩, r2.2)

/-- `fd_step` (R61) on the state of row ch, at sample i of the pass. -/
def fdStepAt (cfg : Config) (draw : Nat) (ch : Chan) (i : Nat) (st : AllPass) (x : F32) : AllPass × F32 :=
  fdStep (freeNan draw ⟨.fd, ch, i⟩) cfg.fdC st x

/-- A filter pass over the samples of a row in index order, each converted in and out (R63); `i` is the index of the
first of them. -/
def filterPass {σ : Type} (step : Nat → σ → F32 → σ × F32) : Nat → σ → List Sample → σ × List Sample
  | _, st, [] => (st, [])
  | i, st, v :: vs =>
    let r := step i st (i16ToF32 v)
    let rest := filterPass step (i + 1) r.1 vs
    (rest.1, f32ToI16 r.2 :: rest.2)

/-- `lp_pass(ch)` (R63). -/
def Channel.lpPass (cfg : Config) (draw : Nat) (ch : Chan) (c : Channel) : Channel :=
  let r := filterPass (lpStep cfg draw ch) 0 c.lp c.row
  { c with lp := r.1, row := r.2 }

/-- `fd_pass(ch)` (R63). -/
def Channel.fdPass (cfg : Config) (draw : Nat) (ch : Chan) (c : Channel) : Channel :=
  let r := filterPass (fdStepAt cfg draw ch) 0 c.fd c.row
  { c with fd := r.1, row := r.2 }

/-- The body of FILTER's loop at row ch: the fractional delay where enabled on this row, then the low-pass where
enabled (R67). -/
def Channel.filterPasses (cfg : Config) (draw : Nat) (ch : Chan) (c : Channel) : Channel :=
  let c1 := if cfg.fdEn && isFdRow ch then c.fdPass cfg draw ch else c
  if cfg.lpEn then c1.lpPass cfg draw ch else c1

/-- FILTER's effect (R67). The order of the rows changes nothing (R67, corner cases). -/
def State.filterAll (s : State) : State := s.mapChans (Channel.filterPasses s.cfg s.draws)

/-- **LP ch** (R65). -/
def execLp (ch : BitVec 4) (s : State) : Host.Outcome State Fault Refusal :=
  match lpRowOf s.cfg ch with
  | none => .next s.illegalCommand
  | some k => .next (s.setChan k ((s.chan k).lpPass s.cfg s.draws k))

/-- **FD ch** (R66). -/
def execFd (ch : BitVec 4) (s : State) : Host.Outcome State Fault Refusal :=
  match fdRowOf s.cfg ch with
  | none => .next s.illegalCommand
  | some k => .next (s.setChan k ((s.chan k).fdPass s.cfg s.draws k))

/-- **FILTER** (R67). -/
def execFilter (s : State) : Host.Outcome State Fault Refusal := .next s.filterAll

end Sys2Proof.Machine
end

