-- ==== Sys2Proof/Machine/Flags.lean ====
section
/-! DEFINITION. The two coalescing flags and their outputs (10_state.md R22, R23, 60_exceptions.md R91), and the words
assembled from flags and parameters (R25, R26). -/

namespace Sys2Proof.Machine

/-- A pulse on FRAME_READY: `FRAME_PENDING <- 1`, whatever its value (R22, R85). -/
def State.raiseFrame (s : State) : State := { s with framePending := true }

/-- `FRAME_PENDING <- 0` (R81). -/
def State.clearFrame (s : State) : State := { s with framePending := false }

/-- `READY <- 1`, whatever its value (R23, R77). -/
def State.raiseReady (s : State) : State := { s with ready := true }

/-- `READY <- 0` (R82). -/
def State.clearReady (s : State) : State := { s with ready := false }

/-- The output IRQ_FRAME (R91). -/
def State.irqFrame (s : State) : Bool := s.framePending

/-- The output IRQ_READY (R91). -/
def State.irqReady (s : State) : Bool := s.ready

/-- The STATUS word: bits 31:5 are 0, then ERR_ILL, RATE_SEEDED, RATE_VALID, READY, FRAME_PENDING (R25). -/
def State.statusWord (s : State) : Word :=
  0#27 ++ BitVec.ofBool s.errIll ++ BitVec.ofBool s.rateSeeded ++ BitVec.ofBool s.rateValid
    ++ BitVec.ofBool s.ready ++ BitVec.ofBool s.framePending

/-- The CONFIG word: SPC in bits 25:16, LP_EN in bit 5, FD_EN in bit 4, NCH in bits 3:0 (R26). -/
def configWord (cfg : Config) : Word :=
  0#6 ++ BitVec.ofNat 10 cfg.spc ++ 0#10 ++ BitVec.ofBool cfg.lpEn ++ BitVec.ofBool cfg.fdEn ++ 6#4

/-- The PATTERN word: PATTERN[k] in bits 4k+3:4k (R26). -/
def patternWord (cfg : Config) : Word :=
  0#8 ++ cfg.pattern.c5 ++ cfg.pattern.c4 ++ cfg.pattern.c3 ++ cfg.pattern.c2 ++ cfg.pattern.c1 ++ cfg.pattern.c0

end Sys2Proof.Machine
end

