-- ==== Sys2Proof/Machine/Acquisition.lean ====
section
/-! DEFINITION. The acquisition commands REC, GAPFILL, RATE, PUBLISH and CYCLE (42_acquisition.md R68 to R78). -/

namespace Sys2Proof.Machine

/-- REC's effect (R69): an unmatched record and a record for a full row are dropped. -/
def State.takeRecord (s : State) (rid : ChannelId) (rval : BitVec 12) : State :=
  match matchRow s.cfg.pattern rid with
  | none => s
  | some k =>
    if s.cfg.spc ≤ (s.chan k).fill.toNat then s
    else s.setChan k ((s.chan k).append (recordSample rval))

/-- Padding of one row (R70, R71): from index f on, S[ch][f-1], where 0 < f < SPC. -/
def padRow (spc f : Nat) (row : List Sample) : List Sample :=
  if 0 < f ∧ f < spc then row.take f ++ List.replicate (spc - f) (rowAt row (f - 1)) else row

/-- The first-sample test of the edge policy (R72). -/
def fixFirst (row : List Sample) : List Sample :=
  if rowAt row 0 = 0 then row.set 0 (rowAt row 1) else row

/-- The last-sample test of the edge policy (R72). -/
def fixLast (spc : Nat) (row : List Sample) : List Sample :=
  if rowAt row (spc - 1) = 0 then row.set (spc - 1) (rowAt row (spc - 2)) else row

/-- The edge policy of one row: first sample, then last, each once; nothing where SPC < 2 (R70, R72). -/
def edgeRow (spc : Nat) (row : List Sample) : List Sample :=
  if 2 ≤ spc then fixLast spc (fixFirst row) else row

/-- The body of GAPFILL's loop: padding, then the edge policy. FILL stays (R70). -/
def Channel.gapfill (spc : Nat) (c : Channel) : Channel :=
  { c with row := edgeRow spc (padRow spc c.fill.toNat c.row) }

/-- GAPFILL's effect (R70). -/
def State.gapfillAll (s : State) : State := s.mapChans fun _ c => c.gapfill s.cfg.spc

/-- The elapsed ticks d = now - PREV_TS, modulo 2^64 (R74). -/
def State.elapsed (s : State) : Timestamp := s.now - s.prevTs

/-- RATE's effect (R74). NOW is read once. -/
def State.measureRate (s : State) : State :=
  if s.rateSeeded then
    if 0 < s.elapsed.toInt then
      { s with rate := rnd32 s.cfg.tps s.elapsed.toNat, rateValid := true, prevTs := s.now }
    else { s with prevTs := s.now }
  else { s with prevTs := s.now, rateSeeded := true }

/-- PUBLISH's effect (R77). -/
def State.publishPacket (s : State) : State := s.raiseReady.clearFills

/-- **REC rid, rval** (R69). -/
def execRecord (rid : ChannelId) (rval : BitVec 12) (s : State) : Host.Outcome State Fault Refusal :=
  .next (s.takeRecord rid rval)

/-- **GAPFILL** (R70). -/
def execGapfill (s : State) : Host.Outcome State Fault Refusal := .next s.gapfillAll

/-- **RATE** (R74). -/
def execRate (s : State) : Host.Outcome State Fault Refusal := .next s.measureRate

/-- **PUBLISH** (R77). -/
def execPublish (s : State) : Host.Outcome State Fault Refusal := .next s.publishPacket

/-- **CYCLE** (R78): the bodies of GAPFILL, FILTER, RATE and PUBLISH in that order, as one command. -/
def execCycle (s : State) : Host.Outcome State Fault Refusal :=
  .next s.gapfillAll.filterAll.measureRate.publishPacket

end Sys2Proof.Machine
end

