-- ==== Sys2Proof/Machine/Control.lean ====
section
/-! DEFINITION. The control commands NOP, FACK, RACK, START and RESET (43_control.md R80 to R84). -/

namespace Sys2Proof.Machine

/-- **NOP** (R80). -/
def execNop (s : State) : Host.Outcome State Fault Refusal := .next s

/-- **FACK** (R81). -/
def execFack (s : State) : Host.Outcome State Fault Refusal := .next s.clearFrame

/-- **RACK** (R82). -/
def execRack (s : State) : Host.Outcome State Fault Refusal := .next s.clearReady

/-- **START** (R83): samples, filter state and ERR_ILL stay. -/
def execStart (s : State) : Host.Outcome State Fault Refusal :=
  .next s.clearFills.clearRate.clearFrame.clearReady

/-- **RESET** (R84). -/
def execReset (s : State) : Host.Outcome State Fault Refusal := .next s.resetBlock

end Sys2Proof.Machine
end

