-- ==== Sys2Proof/Machine/Dispatch.lean ====
section
/-! DEFINITION. One arm for each command (30_encoding.md R52). -/

namespace Sys2Proof.Machine

def exec (i : Instr) (s : State) : Host.Outcome State Fault Refusal :=
  match i with
  | .nop => Sys2Proof.Machine.execNop s
  | .record rid rval => Sys2Proof.Machine.execRecord rid rval s
  | .gapfill => Sys2Proof.Machine.execGapfill s
  | .fd ch => Sys2Proof.Machine.execFd ch s
  | .lp ch => Sys2Proof.Machine.execLp ch s
  | .filter => Sys2Proof.Machine.execFilter s
  | .rate => Sys2Proof.Machine.execRate s
  | .publish => Sys2Proof.Machine.execPublish s
  | .cycle => Sys2Proof.Machine.execCycle s
  | .fack => Sys2Proof.Machine.execFack s
  | .rack => Sys2Proof.Machine.execRack s
  | .start => Sys2Proof.Machine.execStart s
  | .reset => Sys2Proof.Machine.execReset s

end Sys2Proof.Machine
end

