-- ==== Sys2Proof/Machine/Port.lean ====
section
/-! DEFINITION. Taking the next input (00_scope.md R2, 20_memory.md R29, 43_control.md R85, R86): the block's
fetch. Commands come from the command port, not from a memory (R46). -/

namespace Sys2Proof.Machine

/-- What the block does next. -/
inductive Taken where
  /-- Nothing is pending: the block waits and keeps its state (R98, R99). -/
  | idle
  /-- An input that is no command has had its effect, between two commands (R85). -/
  | absorbed (s : State)
  /-- A command word, and the state it executes in. -/
  | command (w : Word) (s : State)
  /-- An access that is no part of the interface (R36). -/
  | refuse (r : Refusal)

/-- The state in which a command word executes: the word is taken, and the index of the NaN draws moves on (log 5). -/
def State.accept (s : State) (rest : List Event) : State := { s with events := rest, draws := s.draws + 1 }

/-- Take the first pending input, in the serial order of R29. -/
def State.take (s : State) : Taken :=
  match s.events with
  | [] => .idle
  | .command w :: rest => .command w (s.accept rest)
  | .partialWrite nbits _ :: _ => .refuse (.commandWidth nbits)
  | .frameReady :: rest => .absorbed { s with events := rest }.raiseFrame
  | .timestamp t :: rest => .absorbed { s with events := rest, now := t }
  | .powerOn :: rest => .absorbed { s with events := rest }.resetBlock

/-- A word written to the command port ahead of every pending input. -/
def State.offer (s : State) (w : Word) : State := { s with events := .command w :: s.events }

end Sys2Proof.Machine
end

