-- ==== Sys2Proof/Machine/Step.lean ====
section
/-! DEFINITION. One step of the block: the next input is taken; a command word is decoded (30_encoding.md R54) and
executed to completion (00_scope.md R13), or raises IllegalCommand (60_exceptions.md R88). -/

namespace Sys2Proof.Machine

def step (s : State) : Host.Outcome State Fault Refusal :=
  match s.take with
  | .idle => .next s
  | .absorbed t => .next t
  | .refuse r => .refused r
  | .command w t =>
    match decode t.cfg w with
    | .ok i => exec i t
    | .error _ => .next t.illegalCommand

/-- The state in which the word is the next input of the command port (log 3). -/
def State.withFetchWord (s : State) (nbits w : Nat) : State := s.offer (tableWord nbits w)

end Sys2Proof.Machine
end

