-- ==== Sys2Proof/Machine/Assembler.lean ====
section
/-! DEFINITION. The assembler syntax of 30_encoding.md R56, over the characters of one line. It rejects an operand out
of its range and leaves FD_EN, LP_EN and the FD rows to execution (R53). -/

namespace Sys2Proof.Machine

/-- A space or a tab. -/
def isBlank (c : Char) : Bool := c == ' ' || c == '\t'

/-- The line without its comment, `;` to the end (R56). -/
def dropComment (cs : List Char) : List Char := cs.takeWhile (· != ';')

/-- The text without blanks at either end. -/
def trimBlanks (cs : List Char) : List Char := ((cs.dropWhile isBlank).reverse.dropWhile isBlank).reverse

/-- The parts between commas. -/
def splitCommas : List Char → List (List Char)
  | [] => [[]]
  | c :: cs =>
    match splitCommas cs with
    | [] => [[c]]
    | p :: ps => if c == ',' then [] :: p :: ps else (c :: p) :: ps

/-- A decimal digit. -/
def decDigit (c : Char) : Option Nat :=
  if 48 ≤ c.toNat ∧ c.toNat ≤ 57 then some (c.toNat - 48) else none

/-- A hexadecimal digit of either case. -/
def hexDigit (c : Char) : Option Nat :=
  if 48 ≤ c.toNat ∧ c.toNat ≤ 57 then some (c.toNat - 48)
  else if 65 ≤ c.toNat ∧ c.toNat ≤ 70 then some (c.toNat - 55)
  else if 97 ≤ c.toNat ∧ c.toNat ≤ 102 then some (c.toNat - 87)
  else none

/-- Digits read on from a value, most significant first. -/
def readDigits (base : Nat) (digit : Char → Option Nat) : Nat → List Char → Option Nat
  | n, [] => some n
  | n, c :: cs =>
    match digit c with
    | none => none
    | some d => readDigits base digit (base * n + d) cs

/-- A decimal number. -/
def readDec : List Char → Option Nat
  | [] => none
  | c :: cs => readDigits 10 decDigit 0 (c :: cs)

/-- A decimal number, or a hexadecimal one after `0x` (R56). -/
def readNumber : List Char → Option Nat
  | '0' :: 'x' :: c :: cs => readDigits 16 hexDigit 0 (c :: cs)
  | cs => readDec cs

/-- A form without operand (R56). -/
def asmN (ops : List (List Char)) (i : Instr) : Option Instr := if ops = [] then some i else none

/-- A form with a channel row, a decimal 0 to 5 (R56). -/
def asmC (ops : List (List Char)) (i : BitVec 4 → Instr) : Option Instr :=
  match ops with
  | [c] =>
    match readDec c with
    | some n => if n ≤ 5 then some (i (BitVec.ofNat 4 n)) else none
    | none => none
  | _ => none

/-- The form of REC: rid 0 to 15, rval 0 to 4095 (R56). -/
def asmR (ops : List (List Char)) : Option Instr :=
  match ops with
  | [a, b] =>
    match readNumber a, readNumber b with
    | some rid, some rval =>
      if rid ≤ 15 ∧ rval ≤ 4095 then some (.record (BitVec.ofNat 4 rid) (BitVec.ofNat 12 rval)) else none
    | _, _ => none
  | _ => none

/-- The command of a mnemonic, in upper case, and its operand texts (R56). -/
def asmCommand (mnemonic : List Char) (ops : List (List Char)) : Option Instr :=
  if mnemonic = ['N', 'O', 'P'] then asmN ops .nop
  else if mnemonic = ['R', 'E', 'C'] then asmR ops
  else if mnemonic = ['G', 'A', 'P', 'F', 'I', 'L', 'L'] then asmN ops .gapfill
  else if mnemonic = ['F', 'D'] then asmC ops .fd
  else if mnemonic = ['L', 'P'] then asmC ops .lp
  else if mnemonic = ['F', 'I', 'L', 'T', 'E', 'R'] then asmN ops .filter
  else if mnemonic = ['R', 'A', 'T', 'E'] then asmN ops .rate
  else if mnemonic = ['P', 'U', 'B', 'L', 'I', 'S', 'H'] then asmN ops .publish
  else if mnemonic = ['C', 'Y', 'C', 'L', 'E'] then asmN ops .cycle
  else if mnemonic = ['F', 'A', 'C', 'K'] then asmN ops .fack
  else if mnemonic = ['R', 'A', 'C', 'K'] then asmN ops .rack
  else if mnemonic = ['S', 'T', 'A', 'R', 'T'] then asmN ops .start
  else if mnemonic = ['R', 'E', 'S', 'E', 'T'] then asmN ops .reset
  else none

/-- The word of one line of assembler text (R56), or none where the assembler rejects it. DESIGN CHOICE (log 16): a line
that holds no command (blank, or a comment alone) assembles to no word, so it gives none too; R56 does not say what it
assembles to. -/
def assemble (line : List Char) : Option Word :=
  let body := trimBlanks (dropComment line)
  let mnemonic := body.takeWhile fun c => !isBlank c
  let rest := trimBlanks (body.dropWhile fun c => !isBlank c)
  let ops := if rest = [] then [] else (splitCommas rest).map trimBlanks
  (asmCommand mnemonic ops).map encode

end Sys2Proof.Machine
end

