-- ==== Sys2Proof/Machine/ReadPort.lean ====
section
/-! DEFINITION. The read port (20_memory.md R30 to R37): a function of the state, so a read has no side effect (R34)
and never faults (R32). An address is first turned into what it names, then that is read. -/

namespace Sys2Proof.Machine

/-- The two sections of the cascade (R18). -/
inductive Section2 where
  | one
  | two
  deriving DecidableEq, Repr

/-- The values of a section's delay lines, in the order of the read map (R18, R31). -/
inductive LpReg where
  | x1
  | x2
  | y1
  | y2
  deriving DecidableEq, Repr

/-- The values of the fractional-delay state, in the order of the read map (R19, R31). -/
inductive FdReg where
  | x1
  | y1
  deriving DecidableEq, Repr

/-- What a word address names (R31). -/
inductive Slot where
  | status
  | config
  | rate
  | pattern
  | prevTsLo
  | prevTsHi
  | fill (ch : Chan)
  | lp (ch : Chan) (sec : Section2) (reg : LpReg)
  | fd (ch : Chan) (reg : FdReg)
  | sample (ch : Chan) (i : Nat)
  | reserved
  deriving DecidableEq, Repr

/-- Something of the row n, or a reserved word where there is no such row. -/
def rowSlot (n : Nat) (f : Chan → Slot) : Slot := if h : n < 6 then f ⟨n, h⟩ else .reserved

/-- Word k = 0 to 3 of a section (R31). -/
def lpRegOf (k : Nat) : LpReg :=
  match k with
  | 0 => .x1
  | 1 => .x2
  | 2 => .y1
  | _ => .y2

/-- The word n of the LP region: row n / 8, section n / 4 of it, value n mod 4 (R31). -/
def lpSlot (n : Nat) : Slot :=
  rowSlot (n / 8) fun ch => .lp ch (if n % 8 < 4 then .one else .two) (lpRegOf (n % 4))

/-- The word n of the FD region (R31). -/
def fdSlot (n : Nat) : Slot := rowSlot (n / 2) fun ch => .fd ch (if n % 2 = 0 then .x1 else .y1)

/-- The word n of the sample region: sample n mod SPC of row n / SPC (R16, R33). -/
def sampleSlot (spc n : Nat) : Slot := rowSlot (n / spc) fun ch => .sample ch (n % spc)

/-- The read address map (R31) of a build with this SPC. -/
def readSlot (spc : Nat) (addr : ReadAddr) : Slot :=
  let a := addr.toNat
  if a < 0x008 then
    match a with
    | 0 => .status
    | 1 => .config
    | 2 => .rate
    | 3 => .pattern
    | 4 => .prevTsLo
    | 5 => .prevTsHi
    | _ => .reserved
  else if a < 0x00E then rowSlot (a - 0x008) .fill
  else if a < 0x040 then .reserved
  else if a < 0x070 then lpSlot (a - 0x040)
  else if a < 0x080 then .reserved
  else if a < 0x08C then fdSlot (a - 0x080)
  else if a < 0x400 then .reserved
  else sampleSlot spc (a - 0x400)

/-- A section of the cascade. -/
def Cascade.section2 (c : Cascade) (sec : Section2) : Biquad :=
  match sec with
  | .one => c.s1
  | .two => c.s2

/-- A value of a section. -/
def Biquad.read (b : Biquad) (reg : LpReg) : F32 :=
  match reg with
  | .x1 => b.x1
  | .x2 => b.x2
  | .y1 => b.y1
  | .y2 => b.y2

/-- A value of the fractional-delay state. -/
def AllPass.read (a : AllPass) (reg : FdReg) : F32 :=
  match reg with
  | .x1 => a.x1
  | .y1 => a.y1

/-- The content of a word (R31, R35): a binary32 value as its pattern, a fill index zero-extended, a sample
sign-extended, the low half of PREV_TS at the lower address. A reserved word reads 0 (R32). -/
def State.slotWord (s : State) (slot : Slot) : Word :=
  match slot with
  | .status => s.statusWord
  | .config => configWord s.cfg
  | .rate => s.rate
  | .pattern => patternWord s.cfg
  | .prevTsLo => s.prevTs.extractLsb' 0 32
  | .prevTsHi => s.prevTs.extractLsb' 32 32
  | .fill ch => (s.chan ch).fill.zeroExtend 32
  | .lp ch sec reg => ((s.chan ch).lp.section2 sec).read reg
  | .fd ch reg => (s.chan ch).fd.read reg
  | .sample ch i => (s.sample ch i).signExtend 32
  | .reserved => 0

/-- `RdWord(a)` (R30, R31). -/
def rdWord (s : State) (addr : ReadAddr) : Word := s.slotWord (readSlot s.cfg.spc addr)

end Sys2Proof.Machine
end

