-- ==== Sys2Proof/Machine/Race.lean ====
section
/-! DEFINITION. Reads that overlap a command (20_memory.md R41, R42). A command is one step of the block (R13), and it is
also the list of the single writes its pseudocode makes, in order; RESET, whose rule gives no order, makes its writes in any
order. A read during the command gives, for its word, the value before the command or after one of those writes; nothing
picks which (log 9). -/

namespace Sys2Proof.Machine

/-- One write of a command's pseudocode. -/
inductive Write where
  | sample (ch : Chan) (i : Nat) (v : Sample)
  | fill (ch : Chan) (f : FillIndex)
  | lp (ch : Chan) (sec : Section2) (reg : LpReg) (v : F32)
  | fd (ch : Chan) (reg : FdReg) (v : F32)
  | rate (v : F32)
  | rateValid (b : Bool)
  | rateSeeded (b : Bool)
  | prevTs (t : Timestamp)
  | framePending (b : Bool)
  | ready (b : Bool)
  | clearErr
  | illegal
  deriving DecidableEq, Repr

/-- One value of a section written. -/
def Biquad.write (b : Biquad) (reg : LpReg) (v : F32) : Biquad :=
  match reg with
  | .x1 => { b with x1 := v }
  | .x2 => { b with x2 := v }
  | .y1 => { b with y1 := v }
  | .y2 => { b with y2 := v }

/-- One value of a cascade written. -/
def Cascade.write (c : Cascade) (sec : Section2) (reg : LpReg) (v : F32) : Cascade :=
  match sec with
  | .one => { c with s1 := c.s1.write reg v }
  | .two => { c with s2 := c.s2.write reg v }

/-- One value of the fractional-delay state written. -/
def AllPass.write (a : AllPass) (reg : FdReg) (v : F32) : AllPass :=
  match reg with
  | .x1 => { a with x1 := v }
  | .y1 => { a with y1 := v }

/-- The state after one write. -/
def Write.apply (w : Write) (s : State) : State :=
  match w with
  | .sample ch i v => s.setChan ch { s.chan ch with row := (s.chan ch).row.set i v }
  | .fill ch f => s.setChan ch { s.chan ch with fill := f }
  | .lp ch sec reg v => s.setChan ch { s.chan ch with lp := (s.chan ch).lp.write sec reg v }
  | .fd ch reg v => s.setChan ch { s.chan ch with fd := (s.chan ch).fd.write reg v }
  | .rate v => { s with rate := v }
  | .rateValid b => { s with rateValid := b }
  | .rateSeeded b => { s with rateSeeded := b }
  | .prevTs t => { s with prevTs := t }
  | .framePending b => { s with framePending := b }
  | .ready b => { s with ready := b }
  | .clearErr => { s with errIll := false }
  | .illegal => s.illegalCommand

/-- The state after a list of writes. -/
def applyWrites (ws : List Write) (s : State) : State := ws.foldl (fun t w => w.apply t) s

/-- The state before the writes and after each of them. -/
def stagesFrom : List Write → State → List State
  | [], s => [s]
  | w :: ws, s => s :: stagesFrom ws (w.apply s)

/-- `S[k][FILL[k]] <- … ; FILL[k] <- FILL[k] + 1`, or nothing (R69). -/
def recordWrites (rid : ChannelId) (rval : BitVec 12) (s : State) : List Write :=
  match matchRow s.cfg.pattern rid with
  | none => []
  | some k =>
    if s.cfg.spc ≤ (s.chan k).fill.toNat then []
    else [.sample k (s.chan k).fill.toNat (recordSample rval), .fill k ((s.chan k).fill + 1)]

/-- The padding writes of one row (R70). -/
def padWrites (spc : Nat) (ch : Chan) (c : Channel) : List Write :=
  if 0 < c.fill.toNat ∧ c.fill.toNat < spc then
    (List.range' c.fill.toNat (spc - c.fill.toNat)).map fun i => .sample ch i (rowAt c.row (c.fill.toNat - 1))
  else []

/-- The edge-policy writes of a row that has been padded (R70, R72). -/
def edgeWrites (spc : Nat) (ch : Chan) (row : List Sample) : List Write :=
  if 2 ≤ spc then
    (if rowAt row 0 = 0 then [.sample ch 0 (rowAt row 1)] else [])
      ++ (if rowAt (fixFirst row) (spc - 1) = 0 then [.sample ch (spc - 1) (rowAt (fixFirst row) (spc - 2))] else [])
  else []

/-- The writes of GAPFILL at one row. -/
def gapfillRowWrites (spc : Nat) (ch : Chan) (c : Channel) : List Write :=
  padWrites spc ch c ++ edgeWrites spc ch (padRow spc c.fill.toNat c.row)

/-- The writes of GAPFILL (R70). -/
def gapfillWrites (s : State) : List Write :=
  PerChannel.order.flatMap fun ch => gapfillRowWrites s.cfg.spc ch (s.chan ch)

/-- `st.x2 <- st.x1 ; st.x1 <- x ; st.y2 <- st.y1 ; st.y1 <- y` (R59), from the section's state after the step. -/
def biquadWrites (ch : Chan) (sec : Section2) (after : Biquad) : List Write :=
  [.lp ch sec .x2 after.x2, .lp ch sec .x1 after.x1, .lp ch sec .y2 after.y2, .lp ch sec .y1 after.y1]

/-- The state writes of `lp_step`: section 1, then section 2 (R60). -/
def cascadeWrites (ch : Chan) (after : Cascade) : List Write :=
  biquadWrites ch .one after.s1 ++ biquadWrites ch .two after.s2

/-- The state writes of `fd_step` (R61). -/
def allPassWrites (ch : Chan) (after : AllPass) : List Write := [.fd ch .x1 after.x1, .fd ch .y1 after.y1]

/-- The writes of a filter pass: at each sample the state writes of the step, then the sample (R63). -/
def passWrites {σ : Type} (step : Nat → σ → F32 → σ × F32) (stateWrites : σ → List Write) (ch : Chan) :
    Nat → σ → List Sample → List Write
  | _, _, [] => []
  | i, st, v :: vs =>
    let r := step i st (i16ToF32 v)
    stateWrites r.1 ++ .sample ch i (f32ToI16 r.2) :: passWrites step stateWrites ch (i + 1) r.1 vs

/-- The writes of `lp_pass(ch)` (R63). -/
def lpWrites (cfg : Config) (draw : Nat) (ch : Chan) (c : Channel) : List Write :=
  passWrites (lpStep cfg draw ch) (cascadeWrites ch) ch 0 c.lp c.row

/-- The writes of `fd_pass(ch)` (R63). -/
def fdWrites (cfg : Config) (draw : Nat) (ch : Chan) (c : Channel) : List Write :=
  passWrites (fdStepAt cfg draw ch) (allPassWrites ch) ch 0 c.fd c.row

/-- The writes of FILTER at one row (R67). -/
def filterRowWrites (cfg : Config) (draw : Nat) (ch : Chan) (c : Channel) : List Write :=
  if cfg.fdEn && isFdRow ch then
    fdWrites cfg draw ch c ++ (if cfg.lpEn then lpWrites cfg draw ch (c.fdPass cfg draw ch) else [])
  else if cfg.lpEn then lpWrites cfg draw ch c else []

/-- The writes of FILTER (R67). -/
def filterWrites (s : State) : List Write :=
  PerChannel.order.flatMap fun ch => filterRowWrites s.cfg s.draws ch (s.chan ch)

/-- The writes of RATE (R74). -/
def rateWrites (s : State) : List Write :=
  if s.rateSeeded then
    if 0 < s.elapsed.toInt then [.rate (rnd32 s.cfg.tps s.elapsed.toNat), .rateValid true, .prevTs s.now]
    else [.prevTs s.now]
  else [.prevTs s.now, .rateSeeded true]

/-- `FILL[ch] <- 0` at every row (R77, R83). -/
def fillClearWrites : List Write := PerChannel.order.map fun ch => .fill ch 0

/-- The writes of PUBLISH (R77). -/
def publishWrites : List Write := .ready true :: fillClearWrites

/-- The writes of START (R83). -/
def startWrites : List Write :=
  fillClearWrites
    ++ [.rate 0, .rateValid false, .rateSeeded false, .prevTs 0, .framePending false, .ready false]

/-- The writes of RESET, listed as R28's table lists the items of state. R84 gives them no order: `commandOrder` admits every
one (log 9). -/
def resetWrites (s : State) : List Write :=
  (PerChannel.order.flatMap fun ch => (List.range s.cfg.spc).map fun i => .sample ch i 0)
    ++ fillClearWrites
    ++ (PerChannel.order.flatMap fun ch => cascadeWrites ch Cascade.zero)
    ++ (PerChannel.order.flatMap fun ch => allPassWrites ch AllPass.zero)
    ++ [.rate 0, .rateValid false, .rateSeeded false, .prevTs 0, .framePending false, .ready false, .clearErr]

/-- The writes of a command's pseudocode from the state it executes in, in the order written (`commandOrder`). -/
def commandWrites (i : Instr) (s : State) : List Write :=
  match i with
  | .nop => []
  | .record rid rval => recordWrites rid rval s
  | .gapfill => gapfillWrites s
  | .fd ch =>
    match fdRowOf s.cfg ch with
    | none => [.illegal]
    | some k => fdWrites s.cfg s.draws k (s.chan k)
  | .lp ch =>
    match lpRowOf s.cfg ch with
    | none => [.illegal]
    | some k => lpWrites s.cfg s.draws k (s.chan k)
  | .filter => filterWrites s
  | .rate => rateWrites s
  | .publish => publishWrites
  | .cycle =>
    gapfillWrites s ++ filterWrites s.gapfillAll ++ rateWrites s.gapfillAll.filterAll ++ publishWrites
  | .fack => [.framePending false]
  | .rack => [.ready false]
  | .start => startWrites
  | .reset => resetWrites s

/-- The command may make its writes in this order: that of its pseudocode (R13), and any order where it has no pseudocode that
gives one, which is RESET alone (R84, log 9). -/
def commandOrder (i : Instr) (s : State) (ws : List Write) : Prop :=
  if i = .reset then ws.Perm (commandWrites i s) else ws = commandWrites i s

/-- The writes of a command word, in an order it may make them (R54, R88). -/
def wordOrder (w : Word) (s : State) (ws : List Write) : Prop :=
  match decode s.cfg w with
  | .ok i => commandOrder i s ws
  | .error _ => ws = [.illegal]

/-- The writes of the next step, in an order it may make them: those of the command word that is taken, of a FRAME_READY pulse
(R85) or of a power-on reset (R99); none of an input that writes nothing. DESIGN CHOICE (log 13): R41 speaks of commands only,
and no rule says what a read that overlaps a power-on reset returns; the model admits what it admits during RESET, every word's
old value or its value after any of RESET's writes, in any order. -/
def stepOrder (s : State) (ws : List Write) : Prop :=
  match s.events with
  | .command w :: rest => wordOrder w (s.accept rest) ws
  | .frameReady :: _ => ws = [.framePending true]
  | .powerOn :: _ => ws.Perm (resetWrites s)
  | .timestamp _ :: _ => ws = []
  | .partialWrite _ _ :: _ => ws = []
  | [] => ws = []

/-- The values a word of the read space takes during these writes, oldest first (R41). -/
def wordHistory (ws : List Write) (s : State) (addr : ReadAddr) : List Word := (stagesFrom ws s).map fun t => rdWord t addr

/-- A read of the word during the command may give this value (R41). -/
def overlapAdmits (i : Instr) (s : State) (addr : ReadAddr) (v : Word) : Prop :=
  ∃ ws, commandOrder i s ws ∧ v ∈ wordHistory ws s addr

/-- Reads of one word by one agent, in this order, may give these values: none is older than the one before it (R42). -/
def coherentFrom : List Word → List Word → Bool
  | _, [] => true
  | history, v :: vs =>
    match history.dropWhile (· != v) with
    | [] => false
    | rest => coherentFrom rest vs

/-- Reads of one word by one agent during a command may give these values, in this order (R41, R42). -/
def overlapReadsAdmit (i : Instr) (s : State) (addr : ReadAddr) (vs : List Word) : Prop :=
  ∃ ws, commandOrder i s ws ∧ coherentFrom (wordHistory ws s addr) vs = true

/-- A word may take these values over a number of steps, oldest first: every write of a command comes before the first of the
next (R40). -/
def runHistory : Nat → State → ReadAddr → List Word → Prop
  | 0, s, addr, h => h = [rdWord s addr]
  | n + 1, s, addr, h =>
    ∃ ws rest, stepOrder s ws ∧ h = wordHistory ws s addr ++ rest
      ∧ match step s with
        | .next t => runHistory n t addr rest
        | .fault _ => rest = []
        | .refused _ => rest = []

/-- Reads of one word by one agent during a number of steps may give these values, in this order (R41, R42). -/
def runReadsAdmit (n : Nat) (s : State) (addr : ReadAddr) (vs : List Word) : Prop :=
  ∃ h, runHistory n s addr h ∧ coherentFrom h vs = true

end Sys2Proof.Machine
end

