-- ==== Sys2Proof/Safety.lean ====
section
/-! DEFINITION. The terms claims use: what a well-formed state is, what a clean run is, which parts of two states
agree, and which rational a binary32 value is. -/

namespace Sys2Proof.Machine

/-- A channel row holds SPC samples (R16), its fill index is at most SPC (R17), and an even row's fractional-delay state
is +0.0 (R19). -/
abbrev Channel.wf (spc : Nat) (ch : Chan) (c : Channel) : Prop :=
  c.row.length = spc ∧ c.fill.toNat ≤ spc ∧ (isFdRow ch = false → c.fd = AllPass.zero)

/-- A well-formed state: SPC and TPS within the bounds of R6, every row well formed. -/
abbrev State.wf (s : State) : Prop :=
  s.cfg.sizesOk = true ∧ ∀ ch : Chan, (s.chan ch).wf s.cfg.spc ch

/-- An illegal command leaves its mark in both bits: ERR_ILL = 1 only where the record of R88 is set (log 4). -/
abbrev State.recordOk (s : State) : Prop := s.errIll = true → s.everIll = true

/-- No illegal command so far: the premise R88 asks of a claim about a command stream (log 4). -/
abbrev State.clean (s : State) : Prop := s.everIll = false

/-- The sample rows agree, each whole (R16). -/
abbrev State.sameRows (s t : State) : Prop := ∀ ch, (t.chan ch).row = (s.chan ch).row

/-- The fill indices agree (R17). -/
abbrev State.sameFills (s t : State) : Prop := ∀ ch, (t.chan ch).fill = (s.chan ch).fill

/-- The low-pass state agrees (R18). -/
abbrev State.sameLp (s t : State) : Prop := ∀ ch, (t.chan ch).lp = (s.chan ch).lp

/-- The fractional-delay state agrees (R19). -/
abbrev State.sameFd (s t : State) : Prop := ∀ ch, (t.chan ch).fd = (s.chan ch).fd

/-- The rate state agrees (R21). -/
abbrev State.sameRate (s t : State) : Prop :=
  t.rate = s.rate ∧ t.rateValid = s.rateValid ∧ t.rateSeeded = s.rateSeeded ∧ t.prevTs = s.prevTs

/-- The two coalescing flags agree (R22, R23). -/
abbrev State.sameSignals (s t : State) : Prop := t.framePending = s.framePending ∧ t.ready = s.ready

/-- What is outside the block agrees: the parameters (R6), the pending inputs, NOW, and the draw counter. -/
abbrev State.sameOutside (s t : State) : Prop :=
  t.cfg = s.cfg ∧ t.events = s.events ∧ t.now = s.now ∧ t.draws = s.draws

/-- ERR_ILL and the record of R88 agree. -/
abbrev State.sameErr (s t : State) : Prop := t.errIll = s.errIll ∧ t.everIll = s.everIll

/-- Every item of the block's state is at its value in R28. -/
abbrev State.atReset (s : State) : Prop :=
  (∀ ch, (s.chan ch).row = List.replicate s.cfg.spc 0 ∧ (s.chan ch).fill = 0
    ∧ (s.chan ch).lp = ⟨⟨0, 0, 0, 0⟩, ⟨0, 0, 0, 0⟩⟩ ∧ (s.chan ch).fd = ⟨0, 0⟩)
  ∧ s.rate = 0 ∧ s.rateValid = false ∧ s.rateSeeded = false ∧ s.prevTs = 0
  ∧ s.framePending = false ∧ s.ready = false ∧ s.errIll = false

/-- The six conditions of R53 on a word, field by field. -/
abbrev illegalWord (cfg : Config) (w : Word) : Prop :=
  (w.extractLsb' 28 4 = 0xB#4 ∨ w.extractLsb' 28 4 = 0xD#4 ∨ w.extractLsb' 28 4 = 0xE#4)
  ∨ (w.extractLsb' 28 4 ∈ [0x0#4, 0x2#4, 0x5#4, 0x6#4, 0x7#4, 0x8#4, 0x9#4, 0xA#4, 0xC#4, 0xF#4]
      ∧ w.extractLsb' 0 28 ≠ 0#28)
  ∨ (w.extractLsb' 28 4 ∈ [0x3#4, 0x4#4] ∧ w.extractLsb' 0 24 ≠ 0#24)
  ∨ (w.extractLsb' 28 4 = 0x1#4 ∧ w.extractLsb' 16 12 ≠ 0#12)
  ∨ (w.extractLsb' 28 4 = 0x4#4 ∧ (cfg.lpEn = false ∨ 5 < (w.extractLsb' 24 4).toNat))
  ∨ (w.extractLsb' 28 4 = 0x3#4 ∧ (cfg.fdEn = false ∨ (w.extractLsb' 24 4).toNat ∉ [1, 3, 5]))

/-- A command of format N: the word of this OP is the command exactly where w[27:0] = 0, in every build (R49). -/
abbrev formatNCommand (op : BitVec 4) (i : Instr) : Prop :=
  ∀ (cfg : Config) (w : Word), w.extractLsb' 28 4 = op →
    (w.extractLsb' 0 28 = 0#28 → decode cfg w = .ok i) ∧ (w.extractLsb' 0 28 ≠ 0#28 → ∃ e, decode cfg w = .error e)

/-- REC is the command of OP 1, with RID and RVAL, exactly where w[27:16] = 0 (R51). -/
abbrev formatRCommand : Prop :=
  ∀ (cfg : Config) (w : Word), w.extractLsb' 28 4 = 0x1#4 →
    (w.extractLsb' 16 12 = 0#12 → decode cfg w = .ok (.record (w.extractLsb' 12 4) (w.extractLsb' 0 12)))
    ∧ (w.extractLsb' 16 12 ≠ 0#12 → ∃ e, decode cfg w = .error e)

/-- A sample of a row after padding: S[ch][f-1] from index f on, in a short row (R70, R71). -/
def padded (spc f : Nat) (x : Nat → Sample) (i : Nat) : Sample :=
  if 0 < f ∧ f < spc ∧ f ≤ i then x (f - 1) else x i

/-- A sample of a row after the first-sample test (R72). -/
def firstFixed (spc : Nat) (x : Nat → Sample) (i : Nat) : Sample :=
  if 2 ≤ spc ∧ i = 0 ∧ x 0 = 0 then x 1 else x i

/-- A sample of a row after the last-sample test (R72). -/
def lastFixed (spc : Nat) (x : Nat → Sample) (i : Nat) : Sample :=
  if 2 ≤ spc ∧ i = spc - 1 ∧ x (spc - 1) = 0 then x (spc - 2) else x i

/-- A binary32 pattern of +0.0 or -0.0. -/
abbrev isZero (f : F32) : Prop := f.extractLsb' 0 31 = 0#31

/-- A binary32 pattern of a NaN: exponent all ones, fraction not 0. -/
abbrev isNanPattern (f : F32) : Prop := f.extractLsb' 23 8 = 0xFF#8 ∧ f.extractLsb' 0 23 ≠ 0#23

/-- Every delay-line value of a cascade is +0.0 or -0.0. -/
abbrev Cascade.isZero (c : Cascade) : Prop :=
  Machine.isZero c.s1.x1 ∧ Machine.isZero c.s1.x2 ∧ Machine.isZero c.s1.y1 ∧ Machine.isZero c.s1.y2
  ∧ Machine.isZero c.s2.x1 ∧ Machine.isZero c.s2.x2 ∧ Machine.isZero c.s2.y1 ∧ Machine.isZero c.s2.y2

/-- A rate that is not valid is +0.0, and before the baseline is seeded there is no rate and PREV_TS is 0 (R21, R76). -/
abbrev State.rateOk (s : State) : Prop :=
  (s.rateValid = false → s.rate = 0) ∧ (s.rateSeeded = false → s.rateValid = false ∧ s.prevTs = 0)

/-- The reserved word addresses of the read space (R31). -/
abbrev reservedAddr (spc : Nat) (a : ReadAddr) : Prop :=
  a.toNat = 0x006 ∨ a.toNat = 0x007 ∨ (0x00E ≤ a.toNat ∧ a.toNat ≤ 0x03F) ∨ (0x070 ≤ a.toNat ∧ a.toNat ≤ 0x07F)
  ∨ (0x08C ≤ a.toNat ∧ a.toNat ≤ 0x3FF) ∨ 0x400 + 6 * spc ≤ a.toNat

/-- The rational of a finite binary32 value; none for an infinity or a NaN. -/
def FVal.value : FVal → Option ℚ
  | .fin neg u => some ((signedUnits neg u : ℚ) / 2 ^ 149)
  | .inf _ => none
  | .nan => none

/-- The rational of a finite bit pattern. -/
def valueOf (f : F32) : Option ℚ := (FVal.ofBits f).value

/-- The significand of a finite pattern is even: bit 0 of the fraction is 0. -/
def evenPattern (f : F32) : Prop := f.getLsbD 0 = false

/-- `r` is the binary32 pattern nearest to the rational `q`, ties to the even pattern; an infinity exactly where `q` is at
least half a last place past the largest finite value, with the sign of `q` (R10). -/
def nearestTo (q : ℚ) (r : F32) : Prop :=
  (∃ v, valueOf r = some v ∧ |q| < 2 ^ 128 - 2 ^ 103
      ∧ ∀ (f : F32) (u : ℚ), valueOf f = some u → |q - v| ≤ |q - u| ∧ (|q - v| = |q - u| → u ≠ v → evenPattern r))
  ∨ (2 ^ 128 - 2 ^ 103 ≤ q ∧ r = infBits false)
  ∨ (q ≤ -(2 ^ 128 - 2 ^ 103) ∧ r = infBits true)

end Sys2Proof.Machine
end

