-- ==== Sys2Proof/Certificates/Slice0/Obligations.lean ====
section
/-! DEFINITION. The statements for the provers. Each is about every state, whatever its build parameters, NOW, pending
inputs and draw counter. The model's own fields (`events`, `now`, `draws`, `everIll`) are those of logs 2 to 5. -/

open Sys2Proof Sys2Proof.Machine

/-! ## Encoding -/

/-- Words written out from R52 and R56 decode to their commands under the test configuration TC. -/
def Obligations.WordsOfTheSpecDecode : Prop :=
  decode Config.reference 0x10003123#32 = .ok (.record 3 0x123)
  ∧ decode Config.reference 0x45000000#32 = .ok (.lp 5)
  ∧ decode Config.reference 0x33000000#32 = .ok (.fd 3)
  ∧ decode Config.reference 0x80000000#32 = .ok .cycle
  ∧ decode Config.reference 0x1000FFFF#32 = .ok (.record 15 4095)
  ∧ decode Config.reference 0xF0000001#32 = .error .formatN
  ∧ decode Config.reference 0x30000000#32 = .error .fdOperand

/-- R52: a word selects a row of the opcode table exactly where `(w & mask) = match`, with the fields of R48; and OP 0xB, 0xD, 0xE select
no command. Legality of the fields of FD and LP is R53's and not asked here. -/
def Obligations.OpcodeMapSelectsByMaskAndMatch : Prop :=
  ∀ w : Word,
    (decodeFields w = .ok .nop ↔ w &&& 0xFFFFFFFF#32 = 0x00000000#32)
    ∧ (∀ rid rval, decodeFields w = .ok (.record rid rval) ↔
        w &&& 0xFFFF0000#32 = 0x10000000#32 ∧ rid = w.extractLsb' 12 4 ∧ rval = w.extractLsb' 0 12)
    ∧ (decodeFields w = .ok .gapfill ↔ w &&& 0xFFFFFFFF#32 = 0x20000000#32)
    ∧ (∀ ch, decodeFields w = .ok (.fd ch) ↔ w &&& 0xF0FFFFFF#32 = 0x30000000#32 ∧ ch = w.extractLsb' 24 4)
    ∧ (∀ ch, decodeFields w = .ok (.lp ch) ↔ w &&& 0xF0FFFFFF#32 = 0x40000000#32 ∧ ch = w.extractLsb' 24 4)
    ∧ (decodeFields w = .ok .filter ↔ w &&& 0xFFFFFFFF#32 = 0x50000000#32)
    ∧ (decodeFields w = .ok .rate ↔ w &&& 0xFFFFFFFF#32 = 0x60000000#32)
    ∧ (decodeFields w = .ok .publish ↔ w &&& 0xFFFFFFFF#32 = 0x70000000#32)
    ∧ (decodeFields w = .ok .cycle ↔ w &&& 0xFFFFFFFF#32 = 0x80000000#32)
    ∧ (decodeFields w = .ok .fack ↔ w &&& 0xFFFFFFFF#32 = 0x90000000#32)
    ∧ (decodeFields w = .ok .rack ↔ w &&& 0xFFFFFFFF#32 = 0xA0000000#32)
    ∧ (decodeFields w = .ok .start ↔ w &&& 0xFFFFFFFF#32 = 0xC0000000#32)
    ∧ (decodeFields w = .ok .reset ↔ w &&& 0xFFFFFFFF#32 = 0xF0000000#32)
    ∧ ((w &&& 0xF0000000#32 = 0xB0000000#32 ∨ w &&& 0xF0000000#32 = 0xD0000000#32 ∨ w &&& 0xF0000000#32 = 0xE0000000#32)
        → ∀ i, decodeFields w ≠ .ok i)

/-- Decoding the word of a command that is legal under the build parameters gives the command back, with every operand
at every value. -/
def Obligations.EncodedCommandsDecodeBack : Prop :=
  ∀ (cfg : Config) (i : Instr), i.wf cfg = true → decode cfg (encode i) = .ok i

/-- A word that decodes is the word of the command it decodes to, and that command is legal: no word has two meanings
and no bit of a legal word is ignored. -/
def Obligations.DecodedWordsAreEncodings : Prop :=
  ∀ (cfg : Config) (w : Word) (i : Instr), decode cfg w = .ok i → i.wf cfg = true ∧ encode i = w

/-- R53: a word is illegal exactly under one of the six conditions, and then the step does nothing but ERR_ILL <- 1. -/
def Obligations.IllegalWordsAreTheSixConditions : Prop :=
  (∀ (cfg : Config) (w : Word), (∃ e, decode cfg w = .error e) ↔ illegalWord cfg w)
  ∧ ∀ (s : State) (w : Word) (rest : List Event), s.events = .command w :: rest → illegalWord s.cfg w →
      ∃ t, step s = .next t ∧ t.errIll = true ∧ t.cfg = s.cfg ∧ s.sameRows t ∧ s.sameFills t ∧ s.sameLp t ∧ s.sameFd t
        ∧ s.sameRate t ∧ s.sameSignals t

/-- R56's examples through the assembler, and an operand out of range. -/
def Obligations.AssemblerGivesTheWordsOfTheSpec : Prop :=
  assemble ['R', 'E', 'C', ' ', '3', ',', ' ', '0', 'x', '1', '2', '3'] = some 0x10003123#32
  ∧ assemble ['L', 'P', ' ', '5'] = some 0x45000000#32
  ∧ assemble ['F', 'D', ' ', '3'] = some 0x33000000#32
  ∧ assemble ['L', 'P', ' ', '6'] = none
  ∧ assemble ['R', 'E', 'C', ' ', '1', '6', ',', ' ', '0'] = none

/-! ## The step -/

/-- A step whose next input is a command word that decodes to a command is that command, executed in the state in which
the word has been taken and the draw counter has moved on (logs 3 and 5). -/
def Obligations.StepRunsTheDecodedCommand : Prop :=
  ∀ (s : State) (w : Word) (rest : List Event) (i : Instr),
    s.events = .command w :: rest → decode s.cfg w = .ok i →
      step s = exec i { s with events := rest, draws := s.draws + 1 }

/-- R88: an illegal word writes ERR_ILL and nothing else of the block, and the record beside it; no later step clears that
record. `events`, `draws` and `everIll` are the model's own (logs 3, 4, 5). -/
def Obligations.IllegalCommandSetsErrIllAlone : Prop :=
  (∀ (s : State) (w : Word) (rest : List Event) (e : IllegalCause),
    s.events = .command w :: rest → decode s.cfg w = .error e →
      step s = .next { s with errIll := true, everIll := true, events := rest, draws := s.draws + 1 })
  ∧ ∀ s t : State, step s = .next t → s.everIll = true → t.everIll = true

/-- A run whose last state has a clean record took no illegal command: in every state it passes through the record is clean,
and no state from which it steps on has an illegal word as its next input. So the premise that R88 asks of a claim about a
command stream is enough at the end (the record is the model's, log 4). -/
def Obligations.CleanEndMeansCleanRun : Prop :=
  ∀ (s u : State) (n : Nat), Host.Core.run Sys2Proof.core n s = .next u → u.clean →
    ∀ (k : Nat) (t : State), k < n → Host.Core.run Sys2Proof.core k s = .next t →
      t.clean ∧ ∀ (w : Word) (rest : List Event), t.events = .command w :: rest → ¬illegalWord t.cfg w

/-- Inputs that are no commands: with none pending the block keeps its state; NOW takes the value driven on it and nothing
else changes; power-on reset gives the state of R28; a command-port write of another width is refused (R36, R86, R98, R99; logs 2, 3, 12, 13). -/
def Obligations.InputsThatAreNoCommands : Prop :=
  (∀ s : State, s.events = [] → step s = .next s)
  ∧ (∀ (s : State) (x : Timestamp) (rest : List Event), s.events = .timestamp x :: rest →
      step s = .next { s with events := rest, now := x })
  ∧ (∀ (s : State) (rest : List Event), s.events = .powerOn :: rest →
      ∃ t, step s = .next t ∧ t.atReset ∧ t.cfg = s.cfg ∧ t.events = rest)
  ∧ (∀ (s : State) (n v : Nat) (rest : List Event), s.events = .partialWrite n v :: rest →
      step s = .refused (.commandWidth n))

/-- Every step answers a next state, but for a command-port write of another width, which is refused (R36, R89). -/
def Obligations.StepsStopOnlyOnPartialWrites : Prop :=
  ∀ s : State, (∃ t, step s = .next t)
    ∨ ∃ n v rest, s.events = .partialWrite n v :: rest ∧ step s = .refused (.commandWidth n)

/-! ## Reset and control -/

/-- R28: RESET and power-on reset give every item of state its reset value, in every build. `sameOutside` and `everIll` are
about the model's own fields (logs 2 to 5). -/
def Obligations.ResetGivesTheResetValues : Prop :=
  formatNCommand 0xF#4 .reset
  ∧ (∀ s : State, ∃ t, exec .reset s = .next t ∧ t.atReset ∧ s.sameOutside t ∧ t.everIll = s.everIll)
  ∧ (∀ (s : State) (rest : List Event), s.events = .powerOn :: rest →
      ∃ t, step s = .next t ∧ t.atReset ∧ t.cfg = s.cfg)
  ∧ (∀ cfg : Config, (State.resetWith cfg).atReset ∧ (State.resetWith cfg).cfg = cfg)
  ∧ State.reset.atReset

/-- After RESET every word of the read space reads 0 but CONFIG and PATTERN, which read as before (R84, R31). -/
def Obligations.ReadsAfterResetAreZero : Prop :=
  ∀ (s : State) (a : ReadAddr), ∃ t, exec .reset s = .next t
    ∧ (a ≠ 0x001#12 → a ≠ 0x003#12 → rdWord t a = 0)
    ∧ rdWord t 0x001#12 = rdWord s 0x001#12 ∧ rdWord t 0x003#12 = rdWord s 0x003#12

/-- R80: NOP completes and changes nothing, so no word of the read space changes; 0x00000000 is its one word. -/
def Obligations.NopChangesNothing : Prop :=
  formatNCommand 0x0#4 .nop
  ∧ (∀ (cfg : Config) (w : Word), decode cfg w = .ok .nop ↔ w = 0x00000000#32)
  ∧ ∀ s : State, exec .nop s = .next s

/-- R81: FACK clears FRAME_PENDING, whatever its value, and changes nothing else. -/
def Obligations.FackClearsFramePendingAlone : Prop :=
  formatNCommand 0x9#4 .fack
  ∧ ∀ s : State, ∃ t, exec .fack s = .next t ∧ t.framePending = false ∧ t.ready = s.ready
      ∧ s.sameRows t ∧ s.sameFills t ∧ s.sameLp t ∧ s.sameFd t ∧ s.sameRate t ∧ s.sameErr t ∧ s.sameOutside t

/-- R82: RACK clears READY, whatever its value, and changes nothing else; the samples stay. -/
def Obligations.RackClearsReadyAlone : Prop :=
  formatNCommand 0xA#4 .rack
  ∧ ∀ s : State, ∃ t, exec .rack s = .next t ∧ t.ready = false ∧ t.framePending = s.framePending
      ∧ s.sameRows t ∧ s.sameFills t ∧ s.sameLp t ∧ s.sameFd t ∧ s.sameRate t ∧ s.sameErr t ∧ s.sameOutside t

/-- R83: START clears the fill indices, the rate state and both flags, and keeps samples, filter state and ERR_ILL. -/
def Obligations.StartBeginsAFreshRun : Prop :=
  formatNCommand 0xC#4 .start
  ∧ ∀ s : State, ∃ t, exec .start s = .next t
      ∧ (∀ ch, (t.chan ch).fill = 0)
      ∧ t.rate = 0 ∧ t.rateValid = false ∧ t.rateSeeded = false ∧ t.prevTs = 0
      ∧ t.framePending = false ∧ t.ready = false
      ∧ s.sameRows t ∧ s.sameLp t ∧ s.sameFd t ∧ s.sameErr t ∧ s.sameOutside t

/-- R22: a FRAME_READY pulse sets FRAME_PENDING whatever its value and changes nothing else; FACK, START and RESET clear it,
no other command writes it; it is 0 at reset; IRQ_FRAME is its level. -/
def Obligations.FramePendingCoalesces : Prop :=
  (∀ (s : State) (rest : List Event), s.events = .frameReady :: rest →
      step s = .next { s with events := rest, framePending := true })
  ∧ (∀ (s : State) (i : Instr), i ∈ [Instr.fack, .start, .reset] →
      ∃ t, exec i s = .next t ∧ t.framePending = false)
  ∧ (∀ (s : State) (i : Instr), i ∉ [Instr.fack, .start, .reset] →
      ∃ t, exec i s = .next t ∧ t.framePending = s.framePending)
  ∧ (∀ cfg : Config, (State.resetWith cfg).framePending = false)
  ∧ ∀ s : State, s.irqFrame = s.framePending

/-- R23: PUBLISH and CYCLE set READY whatever its value; RACK, START and RESET clear it; no other command writes it; it is 0
at reset; IRQ_READY is its level. -/
def Obligations.ReadyCoalesces : Prop :=
  (∀ (s : State) (i : Instr), i ∈ [Instr.publish, .cycle] → ∃ t, exec i s = .next t ∧ t.ready = true)
  ∧ (∀ (s : State) (i : Instr), i ∈ [Instr.rack, .start, .reset] → ∃ t, exec i s = .next t ∧ t.ready = false)
  ∧ (∀ (s : State) (i : Instr), i ∉ [Instr.publish, .cycle, .rack, .start, .reset] →
      ∃ t, exec i s = .next t ∧ t.ready = s.ready)
  ∧ (∀ cfg : Config, (State.resetWith cfg).ready = false)
  ∧ ∀ s : State, s.irqReady = s.ready

/-- R24: an illegal word sets ERR_ILL; a step that clears it runs the RESET command or is the power-on reset, and RESET does
clear it; it is 0 at reset. -/
def Obligations.ErrIllIsSticky : Prop :=
  (∀ (s : State) (w : Word) (rest : List Event), s.events = .command w :: rest → illegalWord s.cfg w →
      ∃ t, step s = .next t ∧ t.errIll = true)
  ∧ (∀ s t : State, step s = .next t → s.errIll = true → t.errIll = false →
      ∃ rest, s.events = .command 0xF0000000#32 :: rest ∨ s.events = .powerOn :: rest)
  ∧ (∀ s : State, ∃ t, exec .reset s = .next t ∧ t.errIll = false)
  ∧ ∀ cfg : Config, (State.resetWith cfg).errIll = false

/-! ## Acquisition -/

/-- R68, R69: a record goes to the first row whose PATTERN entry is its id; there, below SPC, it becomes the sample at
FILL and FILL moves on; an unmatched record and one for a full row change nothing. -/
def Obligations.RecAppendsOrDrops : Prop :=
  formatRCommand
  ∧ ∀ (s : State) (rid : ChannelId) (rval : BitVec 12), s.wf →
    ((∀ k, s.cfg.pattern.get k ≠ rid) → exec (.record rid rval) s = .next s)
    ∧ ∀ k, s.cfg.pattern.get k = rid → (∀ j, j < k → s.cfg.pattern.get j ≠ rid) →
      (s.cfg.spc ≤ (s.chan k).fill.toNat → exec (.record rid rval) s = .next s)
      ∧ ((s.chan k).fill.toNat < s.cfg.spc → ∃ t, exec (.record rid rval) s = .next t
          ∧ t.sample k (s.chan k).fill.toNat = rval.zeroExtend 16
          ∧ (∀ i, i ≠ (s.chan k).fill.toNat → t.sample k i = s.sample k i)
          ∧ (t.chan k).row.length = s.cfg.spc
          ∧ (t.chan k).fill.toNat = (s.chan k).fill.toNat + 1
          ∧ (t.chan k).lp = (s.chan k).lp ∧ (t.chan k).fd = (s.chan k).fd
          ∧ (∀ j, j ≠ k → t.chan j = s.chan j)
          ∧ s.sameRate t ∧ s.sameSignals t ∧ s.sameErr t ∧ s.sameOutside t)

/-- R70, R71, R72: GAPFILL pads every short row with its last recorded sample, then applies the edge policy to every row,
first sample before last; FILL and everything else stays. Sample by sample. -/
def Obligations.GapfillPadsThenFixesEdges : Prop :=
  formatNCommand 0x2#4 .gapfill
  ∧ ∀ s : State, s.wf → ∃ t, exec .gapfill s = .next t
      ∧ (∀ ch i, i < s.cfg.spc → t.sample ch i =
          lastFixed s.cfg.spc (firstFixed s.cfg.spc (padded s.cfg.spc (s.chan ch).fill.toNat (s.sample ch))) i)
      ∧ (∀ ch, (t.chan ch).row.length = s.cfg.spc)
      ∧ s.sameFills t ∧ s.sameLp t ∧ s.sameFd t ∧ s.sameRate t ∧ s.sameSignals t ∧ s.sameErr t ∧ s.sameOutside t

/-- R73: after GAPFILL a row with a record this cycle holds SPC samples, each of them one that REC wrote this cycle. -/
def Obligations.GapfilledRowsHoldRecordedValues : Prop :=
  ∀ s : State, s.wf → ∃ t, exec .gapfill s = .next t
    ∧ ∀ ch, 1 ≤ (s.chan ch).fill.toNat → (t.chan ch).row.length = s.cfg.spc
      ∧ ∀ i, i < s.cfg.spc → ∃ j, j < (s.chan ch).fill.toNat ∧ t.sample ch i = s.sample ch j

/-- R74: the first RATE seeds the baseline and reports nothing; a later one with d > 0, signed, reports the exact quotient
TPS / d rounded once; one with d at most 0 leaves the rate; the baseline moves to NOW every time. -/
def Obligations.RateMeasuresTheInterval : Prop :=
  formatNCommand 0x6#4 .rate
  ∧ ∀ s : State, ∃ t, exec .rate s = .next t
      ∧ t.prevTs = s.now ∧ t.rateSeeded = true
      ∧ (s.rateSeeded = false → t.rate = s.rate ∧ t.rateValid = s.rateValid)
      ∧ (s.rateSeeded = true → (s.now - s.prevTs).toInt ≤ 0 → t.rate = s.rate ∧ t.rateValid = s.rateValid)
      ∧ (s.rateSeeded = true → 0 < (s.now - s.prevTs).toInt →
          t.rateValid = true ∧ nearestTo ((s.cfg.tps : ℚ) / ((s.now - s.prevTs).toInt : ℚ)) t.rate)
      ∧ s.sameRows t ∧ s.sameFills t ∧ s.sameLp t ∧ s.sameFd t ∧ s.sameSignals t ∧ s.sameErr t ∧ s.sameOutside t

/-- Every step keeps: a rate that is not valid is +0.0, and before the baseline is seeded there is no rate and PREV_TS
is 0 (R21, R76). -/
def Obligations.UnsetRateStaysZero : Prop :=
  ∀ s t : State, s.rateOk → step s = .next t → t.rateOk

/-- R77: PUBLISH sets READY whatever its value and clears every fill index; samples, filter state and the rest stay. -/
def Obligations.PublishSignalsAndReopensRows : Prop :=
  formatNCommand 0x7#4 .publish
  ∧ ∀ s : State, ∃ t, exec .publish s = .next t
      ∧ t.ready = true ∧ (∀ ch, (t.chan ch).fill = 0) ∧ t.framePending = s.framePending
      ∧ s.sameRows t ∧ s.sameLp t ∧ s.sameFd t ∧ s.sameRate t ∧ s.sameErr t ∧ s.sameOutside t

/-- R78: CYCLE is GAPFILL, FILTER, RATE and PUBLISH in that order, with the same NOW. NaN patterns in the filter state, which
the spec leaves open, agree because the calls share one draw index (the model's choice, log 5). -/
def Obligations.CycleIsTheFourCommands : Prop :=
  formatNCommand 0x8#4 .cycle
  ∧ ∀ s : State, ∃ a b c d, exec .gapfill s = .next a ∧ exec .filter a = .next b ∧ exec .rate b = .next c
      ∧ exec .publish c = .next d ∧ a.now = s.now ∧ b.now = s.now ∧ exec .cycle s = .next d

/-! ## Filters -/

/-- R59: a biquad step shifts its delay lines and its output is the difference equation, each operation rounded, in the
order written. A NaN output is some NaN (the pattern is the free value of log 5). -/
def Obligations.BiquadStepIsTheDifferenceEquation : Prop :=
  ∀ (draw : Nat) (site : NanSite) (c : Coeffs) (st : Biquad) (x : F32),
    ∃ y, biquadStep (freeNan draw site) c st x = (⟨x, st.x1, y, st.y1⟩, y)
      ∧ FVal.ofBits y =
          fsub (fsub (fadd (fadd (fmul (.ofBits c.b0) (.ofBits x)) (fmul (.ofBits c.b1) (.ofBits st.x1)))
            (fmul (.ofBits c.b2) (.ofBits st.x2))) (fmul (.ofBits c.a1) (.ofBits st.y1)))
            (fmul (.ofBits c.a2) (.ofBits st.y2))

/-- R60: the output of section 1 is the input of section 2, and the cascade's output is that of section 2. -/
def Obligations.CascadeFeedsSectionTwo : Prop :=
  ∀ (cfg : Config) (draw : Nat) (ch : Chan) (i : Nat) (st : Cascade) (x : F32),
    ∃ a u b y, biquadStep (freeNan draw ⟨.lp1, ch, i⟩) cfg.lp1 st.s1 x = (a, u)
      ∧ biquadStep (freeNan draw ⟨.lp2, ch, i⟩) cfg.lp2 st.s2 u = (b, y)
      ∧ lpStep cfg draw ch i st x = (⟨a, b⟩, y)

/-- R61: a fractional-delay step keeps its input and its output, and the output is the all-pass equation, each operation
rounded, in the order written. -/
def Obligations.AllPassStepIsTheDifferenceEquation : Prop :=
  ∀ (cfg : Config) (draw : Nat) (ch : Chan) (i : Nat) (st : AllPass) (x : F32),
    ∃ y, fdStepAt cfg draw ch i st x = (⟨x, y⟩, y)
      ∧ FVal.ofBits y =
          fsub (fadd (fmul (.ofBits cfg.fdC) (.ofBits x)) (.ofBits st.x1)) (fmul (.ofBits cfg.fdC) (.ofBits st.y1))

/-- R10: on finite operands `fadd`, `fsub` and `fmul` give the binary32 value nearest to the exact result, ties to even,
an infinity past the largest finite value, and so do `f32(n)` and `rnd32(q)`; on infinities, NaNs and zeros they give the
IEEE 754 default results, signs of zeros included for sum, difference and product (R89's row on overflow and invalid; D3). -/
def Obligations.ArithmeticIsCorrectlyRounded : Prop :=
  (∀ (a b nan : F32) (p q : ℚ), valueOf a = some p → valueOf b = some q →
    nearestTo (p + q) ((fadd (.ofBits a) (.ofBits b)).toBits nan)
    ∧ nearestTo (p - q) ((fsub (.ofBits a) (.ofBits b)).toBits nan)
    ∧ nearestTo (p * q) ((fmul (.ofBits a) (.ofBits b)).toBits nan))
  ∧ (∀ n : Int, nearestTo (n : ℚ) (f32OfInt n))
  ∧ (∀ n d : Nat, 0 < d → nearestTo ((n : ℚ) / (d : ℚ)) (rnd32 n d))
  ∧ (∀ v, fadd .nan v = .nan ∧ fadd v .nan = .nan ∧ fmul .nan v = .nan ∧ fmul v .nan = .nan
      ∧ fsub .nan v = .nan ∧ fsub v .nan = .nan)
  ∧ (∀ a : Bool, fadd (.inf a) (.inf a) = .inf a ∧ fadd (.inf a) (.inf (!a)) = .nan ∧ fsub (.inf a) (.inf a) = .nan)
  ∧ (∀ a b u, fadd (.inf a) (.fin b u) = .inf a ∧ fadd (.fin b u) (.inf a) = .inf a)
  ∧ (∀ a b, fmul (.inf a) (.fin b 0) = .nan ∧ fmul (.fin b 0) (.inf a) = .nan ∧ fmul (.inf a) (.inf b) = .inf (a != b))
  ∧ (∀ a b u, 0 < u → fmul (.inf a) (.fin b u) = .inf (a != b) ∧ fmul (.fin b u) (.inf a) = .inf (a != b))
  ∧ (∀ a b, fadd (.fin a 0) (.fin b 0) = .fin (a && b) 0 ∧ fmul (.fin a 0) (.fin b 0) = .fin (a != b) 0)
  ∧ (∀ a : Bool, fsub (.inf a) (.inf (!a)) = .inf a)
  ∧ (∀ a b u, fsub (.inf a) (.fin b u) = .inf a ∧ fsub (.fin b u) (.inf a) = .inf (!a))
  ∧ (∀ a b, fsub (.fin a 0) (.fin b 0) = .fin (a && !b) 0)
  ∧ (∀ a u, fsub (.fin a u) (.fin a u) = .fin false 0)
  ∧ (∀ a b u v, (∃ w, fmul (.fin a u) (.fin b v) = .fin (a != b) w) ∨ fmul (.fin a u) (.fin b v) = .inf (a != b))
  ∧ ∀ a u, 0 < u → fadd (.fin a u) (.fin (!a) u) = .fin false 0

/-- R57: a sample becomes the binary32 value equal to it, exactly, and never -0.0. -/
def Obligations.SampleToFloatIsExact : Prop :=
  ∀ v : Sample, valueOf (i16ToF32 v) = some (v.toInt : ℚ) ∧ i16ToF32 v ≠ 0x80000000#32

/-- R58: a binary32 value becomes a sample by clamping to the 16-bit range and then truncating toward zero; a NaN
becomes 0. -/
def Obligations.FloatToSampleClampsThenTruncates : Prop :=
  ∀ f : F32,
    (isNanPattern f → f32ToI16 f = 0)
    ∧ (f = 0x7F800000#32 → (f32ToI16 f).toInt = 32767)
    ∧ (f = 0xFF800000#32 → (f32ToI16 f).toInt = -32768)
    ∧ ∀ q : ℚ, valueOf f = some q →
        (32767 < q → (f32ToI16 f).toInt = 32767)
        ∧ (q < -32768 → (f32ToI16 f).toInt = -32768)
        ∧ (-32768 ≤ q → q ≤ 32767 →
            |((f32ToI16 f).toInt : ℚ)| ≤ |q| ∧ |q| - |((f32ToI16 f).toInt : ℚ)| < 1 ∧ 0 ≤ ((f32ToI16 f).toInt : ℚ) * q)

/-- R63: LP and FD run their step over the SPC samples of their row in index order, the state of each sample's step going
to the next; the last state stays in the filter. Nothing but that row and that filter's state of that row is written. -/
def Obligations.PassesRunTheirStepOverTheRow : Prop :=
  ∀ (s : State) (ch : Chan), s.wf →
    (s.cfg.lpEn = true → ∃ t, exec (.lp (BitVec.ofNat 4 ch.val)) s = .next t
      ∧ (∃ st : Nat → Cascade, st 0 = (s.chan ch).lp ∧ (t.chan ch).lp = st s.cfg.spc
          ∧ ∀ i, i < s.cfg.spc → ∃ y, lpStep s.cfg s.draws ch i (st i) (i16ToF32 (s.sample ch i)) = (st (i + 1), y)
              ∧ t.sample ch i = f32ToI16 y)
      ∧ (t.chan ch).row.length = s.cfg.spc
      ∧ (t.chan ch).fd = (s.chan ch).fd ∧ (t.chan ch).fill = (s.chan ch).fill ∧ (∀ k, k ≠ ch → t.chan k = s.chan k)
      ∧ s.sameRate t ∧ s.sameSignals t ∧ s.sameErr t ∧ s.sameOutside t)
    ∧ (s.cfg.fdEn = true → ch = 1 ∨ ch = 3 ∨ ch = 5 → ∃ t, exec (.fd (BitVec.ofNat 4 ch.val)) s = .next t
      ∧ (∃ st : Nat → AllPass, st 0 = (s.chan ch).fd ∧ (t.chan ch).fd = st s.cfg.spc
          ∧ ∀ i, i < s.cfg.spc →
              ∃ y, fdStepAt s.cfg s.draws ch i (st i) (i16ToF32 (s.sample ch i)) = (st (i + 1), y)
                ∧ t.sample ch i = f32ToI16 y)
      ∧ (t.chan ch).row.length = s.cfg.spc
      ∧ (t.chan ch).lp = (s.chan ch).lp ∧ (t.chan ch).fill = (s.chan ch).fill ∧ (∀ k, k ≠ ch → t.chan k = s.chan k)
      ∧ s.sameRate t ∧ s.sameSignals t ∧ s.sameErr t ∧ s.sameOutside t)

/-- An LP or FD with an operand that R53 does not admit, or whose filter is disabled, is IllegalCommand: ERR_ILL and the
record, nothing else (R65, R66, R88; logs 4 and 7). -/
def Obligations.IllegalOperandsRaiseIllegalCommand : Prop :=
  (∀ (s : State) (ch : BitVec 4), s.cfg.lpEn = false ∨ 5 < ch.toNat →
      exec (.lp ch) s = .next { s with errIll := true, everIll := true })
  ∧ ∀ (s : State) (ch : BitVec 4), s.cfg.fdEn = false ∨ ch.toNat ∉ [1, 3, 5] →
      exec (.fd ch) s = .next { s with errIll := true, everIll := true }

/-- R67: FILTER leaves in each row what FD (on rows 1, 3, 5, where enabled) and then LP (where enabled) leave there; with
both disabled it changes nothing. NaN patterns in the filter state, which the spec leaves open, agree because the calls
share one draw index (the model's choice, log 5). -/
def Obligations.FilterRunsTheEnabledPasses : Prop :=
  formatNCommand 0x5#4 .filter
  ∧ (∀ s : State, ∃ t, exec .filter s = .next t
      ∧ (∀ ch : Chan, s.cfg.fdEn = true ∧ (ch = 1 ∨ ch = 3 ∨ ch = 5) →
          ∃ u, exec (.fd (BitVec.ofNat 4 ch.val)) s = .next u
            ∧ (s.cfg.lpEn = false → t.chan ch = u.chan ch)
            ∧ (s.cfg.lpEn = true → ∃ v, exec (.lp (BitVec.ofNat 4 ch.val)) u = .next v ∧ t.chan ch = v.chan ch))
      ∧ (∀ ch : Chan, ¬(s.cfg.fdEn = true ∧ (ch = 1 ∨ ch = 3 ∨ ch = 5)) →
          (s.cfg.lpEn = false → t.chan ch = s.chan ch)
          ∧ (s.cfg.lpEn = true → ∃ v, exec (.lp (BitVec.ofNat 4 ch.val)) s = .next v ∧ t.chan ch = v.chan ch))
      ∧ s.sameFills t ∧ s.sameRate t ∧ s.sameSignals t ∧ s.sameErr t ∧ s.sameOutside t)
  ∧ ∀ s : State, s.cfg.fdEn = false → s.cfg.lpEn = false → exec .filter s = .next s

/-- A row of zeros from zero filter state stays zero, and so does the state, up to the sign of a zero, for every set of
finite coefficients (R64's counterexample, 95 V-SRC-2 and V-SRC-4). -/
def Obligations.ZeroRowFromZeroStateStaysZero : Prop :=
  ∀ (s : State) (ch : Chan), s.cfg.wf = true → (s.chan ch).row = List.replicate s.cfg.spc 0 →
    (s.cfg.lpEn = true → (s.chan ch).lp.isZero → ∃ t, exec (.lp (BitVec.ofNat 4 ch.val)) s = .next t
      ∧ (t.chan ch).row = (s.chan ch).row ∧ (t.chan ch).lp.isZero)
    ∧ (s.cfg.fdEn = true → ch = 1 ∨ ch = 3 ∨ ch = 5 → isZero (s.chan ch).fd.x1 → isZero (s.chan ch).fd.y1 →
      ∃ t, exec (.fd (BitVec.ofNat 4 ch.val)) s = .next t
        ∧ (t.chan ch).row = (s.chan ch).row ∧ isZero (t.chan ch).fd.x1 ∧ isZero (t.chan ch).fd.y1)

/-- R65's corner case read for every set of finite coefficients: "a row of zeros from zero state stays zero and the state
stays +0.0". EXPECTED TO FAIL: with negative b0, b1, b2 and positive a1, a2 the equation of R59 gives -0.0, which the
output delay line keeps (log 10). -/
def Obligations.ZeroRowKeepsPositiveZeroState : Prop :=
  ∀ (s t : State) (ch : Chan), s.cfg.wf = true → s.cfg.lpEn = true → (s.chan ch).row = List.replicate s.cfg.spc 0 →
    (s.chan ch).lp = Cascade.zero → exec (.lp (BitVec.ofNat 4 ch.val)) s = .next t → (t.chan ch).lp = Cascade.zero

/-- A pass is not idempotent (R64): some row, filtered again from the state the first pass left, gives other samples
and leaves other state. -/
def Obligations.LowPassIsNotIdempotent : Prop :=
  ∃ (s t u : State), s.wf ∧ s.cfg.wf = true ∧ exec (.lp 0) s = .next t
    ∧ exec (.lp 0) (t.setChan 0 { t.chan 0 with row := (s.chan 0).row }) = .next u
    ∧ (u.chan 0).row ≠ (t.chan 0).row ∧ (u.chan 0).lp ≠ (t.chan 0).lp

/-- The free NaN of a filter step is a NaN, and every NaN pattern is one it may be (D34, U10, log 5). -/
def Obligations.EveryNanPatternIsAdmitted : Prop :=
  (∀ (draw : Nat) (site : NanSite), isNanPattern (freeNan draw site))
  ∧ ∀ f : F32, isNanPattern f ↔ ∃ p, nanBits p = f

/-! ## The whole machine -/

/-- Every step keeps a state well formed: each row holds SPC samples, no fill index is above SPC, and the
fractional-delay state of rows 0, 2 and 4 is +0.0 (R16, R17, R19). -/
def Obligations.StepKeepsStateWellFormed : Prop :=
  ∀ s t : State, s.wf → step s = .next t → t.wf

/-- The state after reset is well formed, in every build within the bounds of R6; its rate state is unset, and ERR_ILL agrees
with the record of R88 (log 4). -/
def Obligations.ResetStateIsWellFormed : Prop :=
  (∀ cfg : Config, cfg.sizesOk = true →
    (State.resetWith cfg).wf ∧ (State.resetWith cfg).rateOk ∧ (State.resetWith cfg).recordOk)
  ∧ State.reset.wf ∧ State.reset.cfg.wf = true

/-- No input changes a build parameter (R6); ERR_ILL is set only where the record of R88 is (log 4). -/
def Obligations.StepKeepsParametersAndRecord : Prop :=
  ∀ s t : State, step s = .next t → t.cfg = s.cfg ∧ (s.recordOk → t.recordOk)

/-- Each piece of state has its writers (R16 to R24): a command that is not among them leaves it, and no command touches
the parameters, the pending inputs, NOW or the draw counter. -/
def Obligations.EachStateHasItsWriters : Prop :=
  ∀ (i : Instr) (s : State), ∃ t, exec i s = .next t
    ∧ ((∀ rid rval, i ≠ .record rid rval) → (∀ ch, i ≠ .fd ch) → (∀ ch, i ≠ .lp ch)
        → i ∉ [Instr.gapfill, .filter, .cycle, .reset] → s.sameRows t)
    ∧ ((∀ rid rval, i ≠ .record rid rval) → i ∉ [Instr.publish, .cycle, .start, .reset] → s.sameFills t)
    ∧ ((∀ ch, i ≠ .lp ch) → i ∉ [Instr.filter, .cycle, .reset] → s.sameLp t)
    ∧ ((∀ ch, i ≠ .fd ch) → i ∉ [Instr.filter, .cycle, .reset] → s.sameFd t)
    ∧ (i ∉ [Instr.rate, .cycle, .start, .reset] → s.sameRate t)
    ∧ (i ∉ [Instr.fack, .start, .reset] → t.framePending = s.framePending)
    ∧ (i ∉ [Instr.publish, .cycle, .rack, .start, .reset] → t.ready = s.ready)
    ∧ (i.wf s.cfg = true → i ≠ .reset → s.sameErr t)
    ∧ s.sameOutside t

/-- GAPFILL and FILTER leave in a row what follows from that row alone: two states that agree on a row, on the parameters
and on the draw counter agree on it afterwards (R67's corner case on the order of the rows). -/
def Obligations.RowsDoNotInfluenceEachOther : Prop :=
  ∀ (s t : State) (ch : Chan) (i : Instr), i ∈ [Instr.gapfill, .filter] →
    s.cfg = t.cfg → s.draws = t.draws → s.chan ch = t.chan ch →
      ∃ u v, exec i s = .next u ∧ exec i t = .next v ∧ u.chan ch = v.chan ch

/-! ## The read port -/

/-- R25: the STATUS word, bit by bit, and its reset value. -/
def Obligations.StatusWordBits : Prop :=
  (∀ s : State, (rdWord s 0x000#12).getLsbD 0 = s.framePending ∧ (rdWord s 0x000#12).getLsbD 1 = s.ready
    ∧ (rdWord s 0x000#12).getLsbD 2 = s.rateValid ∧ (rdWord s 0x000#12).getLsbD 3 = s.rateSeeded
    ∧ (rdWord s 0x000#12).getLsbD 4 = s.errIll ∧ (rdWord s 0x000#12).extractLsb' 5 27 = 0#27)
  ∧ ∀ cfg : Config, rdWord (State.resetWith cfg) 0x000#12 = 0

/-- R26: the CONFIG and PATTERN words, field by field; they do not change at reset. -/
def Obligations.ConfigAndPatternWords : Prop :=
  ∀ s : State, s.cfg.sizesOk = true →
    (rdWord s 0x001#12).extractLsb' 0 4 = 6#4
    ∧ (rdWord s 0x001#12).getLsbD 4 = s.cfg.fdEn ∧ (rdWord s 0x001#12).getLsbD 5 = s.cfg.lpEn
    ∧ (rdWord s 0x001#12).extractLsb' 6 10 = 0#10
    ∧ ((rdWord s 0x001#12).extractLsb' 16 10).toNat = s.cfg.spc
    ∧ (rdWord s 0x001#12).extractLsb' 26 6 = 0#6
    ∧ (∀ k : Chan, (rdWord s 0x003#12).extractLsb' (4 * k.val) 4 = s.cfg.pattern.get k)
    ∧ (rdWord s 0x003#12).extractLsb' 24 8 = 0#8
    ∧ ∃ t, exec .reset s = .next t ∧ rdWord t 0x001#12 = rdWord s 0x001#12 ∧ rdWord t 0x003#12 = rdWord s 0x003#12

/-- The words of RATE, PREV_TS, FILL, LP and FD at their addresses (R31, R35). -/
def Obligations.NamedWordsOfTheReadMap : Prop :=
  ∀ s : State,
    rdWord s 0x002#12 = s.rate
    ∧ rdWord s 0x005#12 ++ rdWord s 0x004#12 = s.prevTs
    ∧ ∀ ch : Chan,
      rdWord s (BitVec.ofNat 12 (0x008 + ch.val)) = (s.chan ch).fill.zeroExtend 32
      ∧ rdWord s (BitVec.ofNat 12 (0x040 + 8 * ch.val)) = (s.chan ch).lp.s1.x1
      ∧ rdWord s (BitVec.ofNat 12 (0x041 + 8 * ch.val)) = (s.chan ch).lp.s1.x2
      ∧ rdWord s (BitVec.ofNat 12 (0x042 + 8 * ch.val)) = (s.chan ch).lp.s1.y1
      ∧ rdWord s (BitVec.ofNat 12 (0x043 + 8 * ch.val)) = (s.chan ch).lp.s1.y2
      ∧ rdWord s (BitVec.ofNat 12 (0x044 + 8 * ch.val)) = (s.chan ch).lp.s2.x1
      ∧ rdWord s (BitVec.ofNat 12 (0x045 + 8 * ch.val)) = (s.chan ch).lp.s2.x2
      ∧ rdWord s (BitVec.ofNat 12 (0x046 + 8 * ch.val)) = (s.chan ch).lp.s2.y1
      ∧ rdWord s (BitVec.ofNat 12 (0x047 + 8 * ch.val)) = (s.chan ch).lp.s2.y2
      ∧ rdWord s (BitVec.ofNat 12 (0x080 + 2 * ch.val)) = (s.chan ch).fd.x1
      ∧ rdWord s (BitVec.ofNat 12 (0x081 + 2 * ch.val)) = (s.chan ch).fd.y1

/-- R33: the sample words from 0x400, row-major by channel, sign-extended. -/
def Obligations.SampleWordsAreRowMajor : Prop :=
  ∀ (s : State) (ch : Chan) (i : Nat), s.cfg.sizesOk = true → i < s.cfg.spc →
    rdWord s (BitVec.ofNat 12 (0x400 + ch.val * s.cfg.spc + i)) = (s.sample ch i).signExtend 32

/-- R32: a reserved word reads 0. -/
def Obligations.ReservedWordsReadZero : Prop :=
  ∀ (s : State) (a : ReadAddr), s.cfg.sizesOk = true → reservedAddr s.cfg.spc a → rdWord s a = 0

/-! ## Reads that overlap a command -/

/-- The single writes of a command compose to the command, in the order of its pseudocode, and RESET's in any order (R13, R41,
R84; log 9). -/
def Obligations.WritesComposeToTheCommand : Prop :=
  ∀ (i : Instr) (s : State) (ws : List Write), s.wf → commandOrder i s ws → exec i s = .next (applyWrites ws s)

/-- The writes of a step compose to what the step leaves of the block, whatever input it takes and in every order it may make
them; `events`, `now` and `draws` are no words of the read space (R40; logs 2, 3, 5, 9, 13). -/
def Obligations.StepWritesComposeToTheStep : Prop :=
  ∀ (s t : State) (ws : List Write), s.wf → stepOrder s ws → step s = .next t →
    { applyWrites ws s with events := t.events, now := t.now, draws := t.draws } = t

/-- A read during a command admits exactly the values its word has after some number of the command's writes, from none
of them (the value before the command) to all, in an order the command may make them (R41). -/
def Obligations.OverlappingReadsAdmitOldAndWrittenValues : Prop :=
  ∀ (i : Instr) (s : State) (a : ReadAddr) (v : Word),
    overlapAdmits i s a v ↔
      ∃ ws n, commandOrder i s ws ∧ n ≤ ws.length ∧ v = rdWord (applyWrites (ws.take n) s) a

/-- RESET clears the five flags in no stated order, so a read of STATUS during it admits exactly the words whose set bits were
set before (R41, R84; log 9). -/
def Obligations.StatusDuringResetMayLoseAnyFlags : Prop :=
  ∀ (s : State) (v : Word), overlapAdmits .reset s 0x000#12 v ↔ v &&& rdWord s 0x000#12 = v

/-- READY is written after every sample write: where a command turns READY from 0 to 1, a state in between that shows
READY = 1 already holds the samples the command leaves (R43). -/
def Obligations.ReadyFollowsTheSamples : Prop :=
  ∀ (i : Instr) (s u : State) (ws : List Write), commandOrder i s ws → s.ready = false → u ∈ stagesFrom ws s →
    u.ready = true → u.sameRows (applyWrites ws s)

/-- Every history of a word over a run ends with the value it has where the run ends, and begins with the value it has where
the run begins, and there is one (R34, R40): a read after the last command gives the new value. -/
def Obligations.RunHistoriesBeginAndEndInTheState : Prop :=
  ∀ (n : Nat) (s t : State) (a : ReadAddr), Host.Core.run Sys2Proof.core n s = .next t →
    (∃ h, runHistory n s a h)
    ∧ ∀ h, runHistory n s a h → h.head? = some (rdWord s a) ∧ h.getLast? = some (rdWord t a)

/-- Reads of one word by one agent never go back: a list of values is admitted exactly where it takes values of the word's
history at places that do not decrease (R42). -/
def Obligations.ReadsOfOneWordAreCoherent : Prop :=
  ∀ (history vs : List Word), coherentFrom history vs = true ↔
    ∃ places : List Nat, places.Pairwise (· ≤ ·) ∧ places.map (history[·]?) = vs.map some
end

