-- ==== Sys2Proof/Laws/Channels.lean ====
section
/-! SUPPORT. The laws of the six-channel record: read after write, map, and equality row by row. -/

namespace Sys2Proof.PerChannel

variable {α β : Type}

@[simp] theorem get_set_self (p : PerChannel α) (ch : Chan) (v : α) : (p.set ch v).get ch = v := by
  fin_cases ch <;> rfl

theorem get_set_ne (p : PerChannel α) {ch k : Chan} (v : α) (h : k ≠ ch) : (p.set ch v).get k = p.get k := by
  fin_cases ch <;> fin_cases k <;> first | rfl | exact absurd rfl h

theorem get_set (p : PerChannel α) (ch k : Chan) (v : α) :
    (p.set ch v).get k = if k = ch then v else p.get k := by
  by_cases h : k = ch
  · subst h; simp
  · simp [h, get_set_ne p v h]

@[simp] theorem get_map (f : Chan → α → β) (p : PerChannel α) (ch : Chan) : (p.map f).get ch = f ch (p.get ch) := by
  fin_cases ch <;> rfl

@[simp] theorem get_fill (v : α) (ch : Chan) : (fill v).get ch = v := by
  fin_cases ch <;> rfl

/-- Two records that agree at every row are equal. -/
theorem ext_get {p q : PerChannel α} (h : ∀ ch, p.get ch = q.get ch) : p = q := by
  cases p; cases q
  have h0 := h 0; have h1 := h 1; have h2 := h 2; have h3 := h 3; have h4 := h 4; have h5 := h 5
  simp only [get] at h0 h1 h2 h3 h4 h5
  subst h0 h1 h2 h3 h4 h5; rfl

@[simp] theorem set_get_self (p : PerChannel α) (ch : Chan) : p.set ch (p.get ch) = p := by
  fin_cases ch <;> rfl

@[simp] theorem set_set (p : PerChannel α) (ch : Chan) (v w : α) : (p.set ch v).set ch w = p.set ch w := by
  fin_cases ch <;> rfl

theorem mem_order (ch : Chan) : ch ∈ order := by
  fin_cases ch <;> decide

end Sys2Proof.PerChannel
end

