-- ==== Sys2Proof/Laws/Decode.lean ====
section
/-! SUPPORT. The fields of a word put together from its parts, and a word put together from its fields, for each format
of encoding (30_encoding.md R49 to R51). -/

namespace Sys2Proof

/-- The field of `b` bits between `a` bits above and `c` bits below. -/
theorem extract_middle {a b c : Nat} (x : BitVec a) (y : BitVec b) (z : BitVec c) :
    (x ++ y ++ z).extractLsb' c b = y := by
  apply BitVec.eq_of_getLsbD_eq
  intro i hi
  rw [BitVec.getLsbD_extractLsb', BitVec.getLsbD_append, BitVec.getLsbD_append]
  simp [hi]

/-- The low field. -/
theorem extract_low {a c : Nat} (x : BitVec a) (z : BitVec c) : (x ++ z).extractLsb' 0 c = z := by
  apply BitVec.eq_of_getLsbD_eq
  intro i hi
  rw [BitVec.getLsbD_extractLsb', BitVec.getLsbD_append]
  simp [hi]

/-- The field above `b + c` bits. -/
theorem extract_top {a b c : Nat} (x : BitVec a) (y : BitVec b) (z : BitVec c) :
    (x ++ y ++ z).extractLsb' (c + b) a = x := by
  apply BitVec.eq_of_getLsbD_eq
  intro i hi
  rw [BitVec.getLsbD_extractLsb', BitVec.getLsbD_append, BitVec.getLsbD_append]
  simp [hi, show ¬ c + b + i < c by omega, show c + b + i - c = b + i by omega]

/-- A word is its three parts, high to low. -/
theorem append_three {n : Nat} (w : BitVec n) (a b c : Nat) (h : a + b + c = n) :
    (w.extractLsb' (b + c) a ++ w.extractLsb' c b ++ w.extractLsb' 0 c).cast h = w := by
  apply BitVec.eq_of_getLsbD_eq
  intro i hi
  rw [BitVec.getLsbD_cast, BitVec.getLsbD_append, BitVec.getLsbD_append, BitVec.getLsbD_extractLsb',
    BitVec.getLsbD_extractLsb', BitVec.getLsbD_extractLsb']
  by_cases h1 : i < c
  · simp [h1]
  · by_cases h2 : i - c < b
    · simp [h1, h2, show c + (i - c) = i by omega]
    · simp [h1, h2, show b + c + (i - c - b) = i by omega, show i - c - b < a by omega]

/-- A word of format N from OP and w[27:0] (R49). -/
theorem word_formatN (w : Word) : opField w ++ zeroN w = w := by
  apply BitVec.eq_of_getLsbD_eq
  intro i hi
  rw [BitVec.getLsbD_append, opField, zeroN, BitVec.getLsbD_extractLsb', BitVec.getLsbD_extractLsb']
  by_cases h1 : i < 28
  · simp [h1]
  · simp [h1, show 28 + (i - 28) = i by omega, show i - 28 < 4 by omega]

/-- A word of format C from OP, CH and w[23:0] (R50). -/
theorem word_formatC (w : Word) : opField w ++ chField w ++ zeroC w = w := append_three w 4 4 24 rfl

/-- A word of format R from OP, w[27:16], RID and RVAL (R51). -/
theorem word_formatR (w : Word) : opField w ++ zeroR w ++ ridField w ++ rvalField w = w := by
  apply BitVec.eq_of_getLsbD_eq
  intro i hi
  rw [BitVec.getLsbD_append, BitVec.getLsbD_append, BitVec.getLsbD_append, opField, zeroR, ridField, rvalField,
    BitVec.getLsbD_extractLsb', BitVec.getLsbD_extractLsb', BitVec.getLsbD_extractLsb', BitVec.getLsbD_extractLsb']
  by_cases h1 : i < 12
  · simp [h1]
  · by_cases h2 : i - 12 < 4
    · simp [h1, h2, show 12 + (i - 12) = i by omega]
    · by_cases h3 : i - 12 - 4 < 12
      · simp [h1, h2, h3, show 16 + (i - 12 - 4) = i by omega]
      · simp [h1, h2, h3, show 28 + (i - 12 - 4 - 12) = i by omega, show i - 12 - 4 - 12 < 4 by omega]

/-- OP of an encoding of format C. -/
theorem opField_formatC (op ch : BitVec 4) (z : BitVec 24) : opField (op ++ ch ++ z) = op := extract_top op ch z

/-- CH of an encoding of format C. -/
theorem chField_formatC (op ch : BitVec 4) (z : BitVec 24) : chField (op ++ ch ++ z) = ch := extract_middle op ch z

/-- w[23:0] of an encoding of format C. -/
theorem zeroC_formatC (op ch : BitVec 4) (z : BitVec 24) : zeroC (op ++ ch ++ z) = z := extract_low (op ++ ch) z

/-- OP of an encoding of format R. -/
theorem opField_formatR (op : BitVec 4) (z : BitVec 12) (rid : BitVec 4) (rval : BitVec 12) :
    opField (op ++ z ++ rid ++ rval) = op := by
  apply BitVec.eq_of_getLsbD_eq
  intro i hi
  rw [opField, BitVec.getLsbD_extractLsb', BitVec.getLsbD_append, BitVec.getLsbD_append, BitVec.getLsbD_append]
  simp [hi, show ¬ 28 + i < 12 by omega, show ¬ 28 + i - 12 < 4 by omega, show ¬ 28 + i - 12 - 4 < 12 by omega,
    show 28 + i - 12 - 4 - 12 = i by omega]

/-- w[27:16] of an encoding of format R. -/
theorem zeroR_formatR (op : BitVec 4) (z : BitVec 12) (rid : BitVec 4) (rval : BitVec 12) :
    zeroR (op ++ z ++ rid ++ rval) = z := by
  apply BitVec.eq_of_getLsbD_eq
  intro i hi
  rw [zeroR, BitVec.getLsbD_extractLsb', BitVec.getLsbD_append, BitVec.getLsbD_append, BitVec.getLsbD_append]
  simp [hi, show ¬ 16 + i < 12 by omega, show ¬ 16 + i - 12 < 4 by omega, show 16 + i - 12 - 4 = i by omega]

/-- RID of an encoding of format R. -/
theorem ridField_formatR (op : BitVec 4) (z : BitVec 12) (rid : BitVec 4) (rval : BitVec 12) :
    ridField (op ++ z ++ rid ++ rval) = rid := extract_middle (op ++ z) rid rval

/-- RVAL of an encoding of format R. -/
theorem rvalField_formatR (op : BitVec 4) (z : BitVec 12) (rid : BitVec 4) (rval : BitVec 12) :
    rvalField (op ++ z ++ rid ++ rval) = rval := extract_low (op ++ z ++ rid) rval

end Sys2Proof
end

