-- ==== Sys2Proof/Laws/State.lean ====
section
/-! SUPPORT. One lemma per field per update of the state, so that no later proof unfolds a record update. -/

namespace Sys2Proof.Machine.State

@[simp] theorem setChan_cfg (s : State) (ch : Chan) (c : Channel) : (s.setChan ch c).cfg = s.cfg := rfl
@[simp] theorem setChan_rate (s : State) (ch : Chan) (c : Channel) : (s.setChan ch c).rate = s.rate := rfl
@[simp] theorem setChan_rateValid (s : State) (ch : Chan) (c : Channel) : (s.setChan ch c).rateValid = s.rateValid := rfl
@[simp] theorem setChan_rateSeeded (s : State) (ch : Chan) (c : Channel) : (s.setChan ch c).rateSeeded = s.rateSeeded := rfl
@[simp] theorem setChan_prevTs (s : State) (ch : Chan) (c : Channel) : (s.setChan ch c).prevTs = s.prevTs := rfl
@[simp] theorem setChan_framePending (s : State) (ch : Chan) (c : Channel) : (s.setChan ch c).framePending = s.framePending := rfl
@[simp] theorem setChan_ready (s : State) (ch : Chan) (c : Channel) : (s.setChan ch c).ready = s.ready := rfl
@[simp] theorem setChan_errIll (s : State) (ch : Chan) (c : Channel) : (s.setChan ch c).errIll = s.errIll := rfl
@[simp] theorem setChan_now (s : State) (ch : Chan) (c : Channel) : (s.setChan ch c).now = s.now := rfl
@[simp] theorem setChan_events (s : State) (ch : Chan) (c : Channel) : (s.setChan ch c).events = s.events := rfl
@[simp] theorem setChan_draws (s : State) (ch : Chan) (c : Channel) : (s.setChan ch c).draws = s.draws := rfl
@[simp] theorem setChan_everIll (s : State) (ch : Chan) (c : Channel) : (s.setChan ch c).everIll = s.everIll := rfl

@[simp] theorem mapChans_cfg (s : State) (f : Chan → Channel → Channel) : (s.mapChans f).cfg = s.cfg := rfl
@[simp] theorem mapChans_rate (s : State) (f : Chan → Channel → Channel) : (s.mapChans f).rate = s.rate := rfl
@[simp] theorem mapChans_rateValid (s : State) (f : Chan → Channel → Channel) : (s.mapChans f).rateValid = s.rateValid := rfl
@[simp] theorem mapChans_rateSeeded (s : State) (f : Chan → Channel → Channel) : (s.mapChans f).rateSeeded = s.rateSeeded := rfl
@[simp] theorem mapChans_prevTs (s : State) (f : Chan → Channel → Channel) : (s.mapChans f).prevTs = s.prevTs := rfl
@[simp] theorem mapChans_framePending (s : State) (f : Chan → Channel → Channel) : (s.mapChans f).framePending = s.framePending := rfl
@[simp] theorem mapChans_ready (s : State) (f : Chan → Channel → Channel) : (s.mapChans f).ready = s.ready := rfl
@[simp] theorem mapChans_errIll (s : State) (f : Chan → Channel → Channel) : (s.mapChans f).errIll = s.errIll := rfl
@[simp] theorem mapChans_now (s : State) (f : Chan → Channel → Channel) : (s.mapChans f).now = s.now := rfl
@[simp] theorem mapChans_events (s : State) (f : Chan → Channel → Channel) : (s.mapChans f).events = s.events := rfl
@[simp] theorem mapChans_draws (s : State) (f : Chan → Channel → Channel) : (s.mapChans f).draws = s.draws := rfl
@[simp] theorem mapChans_everIll (s : State) (f : Chan → Channel → Channel) : (s.mapChans f).everIll = s.everIll := rfl

@[simp] theorem filterAll_cfg (s : State) : (s.filterAll).cfg = s.cfg := rfl
@[simp] theorem filterAll_rate (s : State) : (s.filterAll).rate = s.rate := rfl
@[simp] theorem filterAll_rateValid (s : State) : (s.filterAll).rateValid = s.rateValid := rfl
@[simp] theorem filterAll_rateSeeded (s : State) : (s.filterAll).rateSeeded = s.rateSeeded := rfl
@[simp] theorem filterAll_prevTs (s : State) : (s.filterAll).prevTs = s.prevTs := rfl
@[simp] theorem filterAll_framePending (s : State) : (s.filterAll).framePending = s.framePending := rfl
@[simp] theorem filterAll_ready (s : State) : (s.filterAll).ready = s.ready := rfl
@[simp] theorem filterAll_errIll (s : State) : (s.filterAll).errIll = s.errIll := rfl
@[simp] theorem filterAll_now (s : State) : (s.filterAll).now = s.now := rfl
@[simp] theorem filterAll_events (s : State) : (s.filterAll).events = s.events := rfl
@[simp] theorem filterAll_draws (s : State) : (s.filterAll).draws = s.draws := rfl
@[simp] theorem filterAll_everIll (s : State) : (s.filterAll).everIll = s.everIll := rfl

@[simp] theorem gapfillAll_cfg (s : State) : (s.gapfillAll).cfg = s.cfg := rfl
@[simp] theorem gapfillAll_rate (s : State) : (s.gapfillAll).rate = s.rate := rfl
@[simp] theorem gapfillAll_rateValid (s : State) : (s.gapfillAll).rateValid = s.rateValid := rfl
@[simp] theorem gapfillAll_rateSeeded (s : State) : (s.gapfillAll).rateSeeded = s.rateSeeded := rfl
@[simp] theorem gapfillAll_prevTs (s : State) : (s.gapfillAll).prevTs = s.prevTs := rfl
@[simp] theorem gapfillAll_framePending (s : State) : (s.gapfillAll).framePending = s.framePending := rfl
@[simp] theorem gapfillAll_ready (s : State) : (s.gapfillAll).ready = s.ready := rfl
@[simp] theorem gapfillAll_errIll (s : State) : (s.gapfillAll).errIll = s.errIll := rfl
@[simp] theorem gapfillAll_now (s : State) : (s.gapfillAll).now = s.now := rfl
@[simp] theorem gapfillAll_events (s : State) : (s.gapfillAll).events = s.events := rfl
@[simp] theorem gapfillAll_draws (s : State) : (s.gapfillAll).draws = s.draws := rfl
@[simp] theorem gapfillAll_everIll (s : State) : (s.gapfillAll).everIll = s.everIll := rfl

@[simp] theorem clearFills_cfg (s : State) : (s.clearFills).cfg = s.cfg := rfl
@[simp] theorem clearFills_rate (s : State) : (s.clearFills).rate = s.rate := rfl
@[simp] theorem clearFills_rateValid (s : State) : (s.clearFills).rateValid = s.rateValid := rfl
@[simp] theorem clearFills_rateSeeded (s : State) : (s.clearFills).rateSeeded = s.rateSeeded := rfl
@[simp] theorem clearFills_prevTs (s : State) : (s.clearFills).prevTs = s.prevTs := rfl
@[simp] theorem clearFills_framePending (s : State) : (s.clearFills).framePending = s.framePending := rfl
@[simp] theorem clearFills_ready (s : State) : (s.clearFills).ready = s.ready := rfl
@[simp] theorem clearFills_errIll (s : State) : (s.clearFills).errIll = s.errIll := rfl
@[simp] theorem clearFills_now (s : State) : (s.clearFills).now = s.now := rfl
@[simp] theorem clearFills_events (s : State) : (s.clearFills).events = s.events := rfl
@[simp] theorem clearFills_draws (s : State) : (s.clearFills).draws = s.draws := rfl
@[simp] theorem clearFills_everIll (s : State) : (s.clearFills).everIll = s.everIll := rfl

@[simp] theorem clearRate_cfg (s : State) : (s.clearRate).cfg = s.cfg := rfl
@[simp] theorem clearRate_rate (s : State) : (s.clearRate).rate = 0 := rfl
@[simp] theorem clearRate_rateValid (s : State) : (s.clearRate).rateValid = false := rfl
@[simp] theorem clearRate_rateSeeded (s : State) : (s.clearRate).rateSeeded = false := rfl
@[simp] theorem clearRate_prevTs (s : State) : (s.clearRate).prevTs = 0 := rfl
@[simp] theorem clearRate_framePending (s : State) : (s.clearRate).framePending = s.framePending := rfl
@[simp] theorem clearRate_ready (s : State) : (s.clearRate).ready = s.ready := rfl
@[simp] theorem clearRate_errIll (s : State) : (s.clearRate).errIll = s.errIll := rfl
@[simp] theorem clearRate_now (s : State) : (s.clearRate).now = s.now := rfl
@[simp] theorem clearRate_events (s : State) : (s.clearRate).events = s.events := rfl
@[simp] theorem clearRate_draws (s : State) : (s.clearRate).draws = s.draws := rfl
@[simp] theorem clearRate_everIll (s : State) : (s.clearRate).everIll = s.everIll := rfl

@[simp] theorem resetBlock_cfg (s : State) : (s.resetBlock).cfg = s.cfg := rfl
@[simp] theorem resetBlock_rate (s : State) : (s.resetBlock).rate = 0 := rfl
@[simp] theorem resetBlock_rateValid (s : State) : (s.resetBlock).rateValid = false := rfl
@[simp] theorem resetBlock_rateSeeded (s : State) : (s.resetBlock).rateSeeded = false := rfl
@[simp] theorem resetBlock_prevTs (s : State) : (s.resetBlock).prevTs = 0 := rfl
@[simp] theorem resetBlock_framePending (s : State) : (s.resetBlock).framePending = false := rfl
@[simp] theorem resetBlock_ready (s : State) : (s.resetBlock).ready = false := rfl
@[simp] theorem resetBlock_errIll (s : State) : (s.resetBlock).errIll = false := rfl
@[simp] theorem resetBlock_now (s : State) : (s.resetBlock).now = s.now := rfl
@[simp] theorem resetBlock_events (s : State) : (s.resetBlock).events = s.events := rfl
@[simp] theorem resetBlock_draws (s : State) : (s.resetBlock).draws = s.draws := rfl
@[simp] theorem resetBlock_everIll (s : State) : (s.resetBlock).everIll = s.everIll := rfl

@[simp] theorem illegalCommand_cfg (s : State) : (s.illegalCommand).cfg = s.cfg := rfl
@[simp] theorem illegalCommand_rate (s : State) : (s.illegalCommand).rate = s.rate := rfl
@[simp] theorem illegalCommand_rateValid (s : State) : (s.illegalCommand).rateValid = s.rateValid := rfl
@[simp] theorem illegalCommand_rateSeeded (s : State) : (s.illegalCommand).rateSeeded = s.rateSeeded := rfl
@[simp] theorem illegalCommand_prevTs (s : State) : (s.illegalCommand).prevTs = s.prevTs := rfl
@[simp] theorem illegalCommand_framePending (s : State) : (s.illegalCommand).framePending = s.framePending := rfl
@[simp] theorem illegalCommand_ready (s : State) : (s.illegalCommand).ready = s.ready := rfl
@[simp] theorem illegalCommand_errIll (s : State) : (s.illegalCommand).errIll = true := rfl
@[simp] theorem illegalCommand_now (s : State) : (s.illegalCommand).now = s.now := rfl
@[simp] theorem illegalCommand_events (s : State) : (s.illegalCommand).events = s.events := rfl
@[simp] theorem illegalCommand_draws (s : State) : (s.illegalCommand).draws = s.draws := rfl
@[simp] theorem illegalCommand_everIll (s : State) : (s.illegalCommand).everIll = true := rfl

@[simp] theorem raiseFrame_cfg (s : State) : (s.raiseFrame).cfg = s.cfg := rfl
@[simp] theorem raiseFrame_rate (s : State) : (s.raiseFrame).rate = s.rate := rfl
@[simp] theorem raiseFrame_rateValid (s : State) : (s.raiseFrame).rateValid = s.rateValid := rfl
@[simp] theorem raiseFrame_rateSeeded (s : State) : (s.raiseFrame).rateSeeded = s.rateSeeded := rfl
@[simp] theorem raiseFrame_prevTs (s : State) : (s.raiseFrame).prevTs = s.prevTs := rfl
@[simp] theorem raiseFrame_framePending (s : State) : (s.raiseFrame).framePending = true := rfl
@[simp] theorem raiseFrame_ready (s : State) : (s.raiseFrame).ready = s.ready := rfl
@[simp] theorem raiseFrame_errIll (s : State) : (s.raiseFrame).errIll = s.errIll := rfl
@[simp] theorem raiseFrame_now (s : State) : (s.raiseFrame).now = s.now := rfl
@[simp] theorem raiseFrame_events (s : State) : (s.raiseFrame).events = s.events := rfl
@[simp] theorem raiseFrame_draws (s : State) : (s.raiseFrame).draws = s.draws := rfl
@[simp] theorem raiseFrame_everIll (s : State) : (s.raiseFrame).everIll = s.everIll := rfl

@[simp] theorem clearFrame_cfg (s : State) : (s.clearFrame).cfg = s.cfg := rfl
@[simp] theorem clearFrame_rate (s : State) : (s.clearFrame).rate = s.rate := rfl
@[simp] theorem clearFrame_rateValid (s : State) : (s.clearFrame).rateValid = s.rateValid := rfl
@[simp] theorem clearFrame_rateSeeded (s : State) : (s.clearFrame).rateSeeded = s.rateSeeded := rfl
@[simp] theorem clearFrame_prevTs (s : State) : (s.clearFrame).prevTs = s.prevTs := rfl
@[simp] theorem clearFrame_framePending (s : State) : (s.clearFrame).framePending = false := rfl
@[simp] theorem clearFrame_ready (s : State) : (s.clearFrame).ready = s.ready := rfl
@[simp] theorem clearFrame_errIll (s : State) : (s.clearFrame).errIll = s.errIll := rfl
@[simp] theorem clearFrame_now (s : State) : (s.clearFrame).now = s.now := rfl
@[simp] theorem clearFrame_events (s : State) : (s.clearFrame).events = s.events := rfl
@[simp] theorem clearFrame_draws (s : State) : (s.clearFrame).draws = s.draws := rfl
@[simp] theorem clearFrame_everIll (s : State) : (s.clearFrame).everIll = s.everIll := rfl

@[simp] theorem raiseReady_cfg (s : State) : (s.raiseReady).cfg = s.cfg := rfl
@[simp] theorem raiseReady_rate (s : State) : (s.raiseReady).rate = s.rate := rfl
@[simp] theorem raiseReady_rateValid (s : State) : (s.raiseReady).rateValid = s.rateValid := rfl
@[simp] theorem raiseReady_rateSeeded (s : State) : (s.raiseReady).rateSeeded = s.rateSeeded := rfl
@[simp] theorem raiseReady_prevTs (s : State) : (s.raiseReady).prevTs = s.prevTs := rfl
@[simp] theorem raiseReady_framePending (s : State) : (s.raiseReady).framePending = s.framePending := rfl
@[simp] theorem raiseReady_ready (s : State) : (s.raiseReady).ready = true := rfl
@[simp] theorem raiseReady_errIll (s : State) : (s.raiseReady).errIll = s.errIll := rfl
@[simp] theorem raiseReady_now (s : State) : (s.raiseReady).now = s.now := rfl
@[simp] theorem raiseReady_events (s : State) : (s.raiseReady).events = s.events := rfl
@[simp] theorem raiseReady_draws (s : State) : (s.raiseReady).draws = s.draws := rfl
@[simp] theorem raiseReady_everIll (s : State) : (s.raiseReady).everIll = s.everIll := rfl

@[simp] theorem clearReady_cfg (s : State) : (s.clearReady).cfg = s.cfg := rfl
@[simp] theorem clearReady_rate (s : State) : (s.clearReady).rate = s.rate := rfl
@[simp] theorem clearReady_rateValid (s : State) : (s.clearReady).rateValid = s.rateValid := rfl
@[simp] theorem clearReady_rateSeeded (s : State) : (s.clearReady).rateSeeded = s.rateSeeded := rfl
@[simp] theorem clearReady_prevTs (s : State) : (s.clearReady).prevTs = s.prevTs := rfl
@[simp] theorem clearReady_framePending (s : State) : (s.clearReady).framePending = s.framePending := rfl
@[simp] theorem clearReady_ready (s : State) : (s.clearReady).ready = false := rfl
@[simp] theorem clearReady_errIll (s : State) : (s.clearReady).errIll = s.errIll := rfl
@[simp] theorem clearReady_now (s : State) : (s.clearReady).now = s.now := rfl
@[simp] theorem clearReady_events (s : State) : (s.clearReady).events = s.events := rfl
@[simp] theorem clearReady_draws (s : State) : (s.clearReady).draws = s.draws := rfl
@[simp] theorem clearReady_everIll (s : State) : (s.clearReady).everIll = s.everIll := rfl

@[simp] theorem publishPacket_cfg (s : State) : (s.publishPacket).cfg = s.cfg := rfl
@[simp] theorem publishPacket_rate (s : State) : (s.publishPacket).rate = s.rate := rfl
@[simp] theorem publishPacket_rateValid (s : State) : (s.publishPacket).rateValid = s.rateValid := rfl
@[simp] theorem publishPacket_rateSeeded (s : State) : (s.publishPacket).rateSeeded = s.rateSeeded := rfl
@[simp] theorem publishPacket_prevTs (s : State) : (s.publishPacket).prevTs = s.prevTs := rfl
@[simp] theorem publishPacket_framePending (s : State) : (s.publishPacket).framePending = s.framePending := rfl
@[simp] theorem publishPacket_ready (s : State) : (s.publishPacket).ready = true := rfl
@[simp] theorem publishPacket_errIll (s : State) : (s.publishPacket).errIll = s.errIll := rfl
@[simp] theorem publishPacket_now (s : State) : (s.publishPacket).now = s.now := rfl
@[simp] theorem publishPacket_events (s : State) : (s.publishPacket).events = s.events := rfl
@[simp] theorem publishPacket_draws (s : State) : (s.publishPacket).draws = s.draws := rfl
@[simp] theorem publishPacket_everIll (s : State) : (s.publishPacket).everIll = s.everIll := rfl

@[simp] theorem accept_cfg (s : State) (rest : List Event) : (s.accept rest).cfg = s.cfg := rfl
@[simp] theorem accept_rate (s : State) (rest : List Event) : (s.accept rest).rate = s.rate := rfl
@[simp] theorem accept_rateValid (s : State) (rest : List Event) : (s.accept rest).rateValid = s.rateValid := rfl
@[simp] theorem accept_rateSeeded (s : State) (rest : List Event) : (s.accept rest).rateSeeded = s.rateSeeded := rfl
@[simp] theorem accept_prevTs (s : State) (rest : List Event) : (s.accept rest).prevTs = s.prevTs := rfl
@[simp] theorem accept_framePending (s : State) (rest : List Event) : (s.accept rest).framePending = s.framePending := rfl
@[simp] theorem accept_ready (s : State) (rest : List Event) : (s.accept rest).ready = s.ready := rfl
@[simp] theorem accept_errIll (s : State) (rest : List Event) : (s.accept rest).errIll = s.errIll := rfl
@[simp] theorem accept_now (s : State) (rest : List Event) : (s.accept rest).now = s.now := rfl
@[simp] theorem accept_events (s : State) (rest : List Event) : (s.accept rest).events = rest := rfl
@[simp] theorem accept_draws (s : State) (rest : List Event) : (s.accept rest).draws = s.draws + 1 := rfl
@[simp] theorem accept_everIll (s : State) (rest : List Event) : (s.accept rest).everIll = s.everIll := rfl

@[simp] theorem offer_cfg (s : State) (w : Word) : (s.offer w).cfg = s.cfg := rfl
@[simp] theorem offer_rate (s : State) (w : Word) : (s.offer w).rate = s.rate := rfl
@[simp] theorem offer_rateValid (s : State) (w : Word) : (s.offer w).rateValid = s.rateValid := rfl
@[simp] theorem offer_rateSeeded (s : State) (w : Word) : (s.offer w).rateSeeded = s.rateSeeded := rfl
@[simp] theorem offer_prevTs (s : State) (w : Word) : (s.offer w).prevTs = s.prevTs := rfl
@[simp] theorem offer_framePending (s : State) (w : Word) : (s.offer w).framePending = s.framePending := rfl
@[simp] theorem offer_ready (s : State) (w : Word) : (s.offer w).ready = s.ready := rfl
@[simp] theorem offer_errIll (s : State) (w : Word) : (s.offer w).errIll = s.errIll := rfl
@[simp] theorem offer_now (s : State) (w : Word) : (s.offer w).now = s.now := rfl
@[simp] theorem offer_events (s : State) (w : Word) : (s.offer w).events = .command w :: s.events := rfl
@[simp] theorem offer_draws (s : State) (w : Word) : (s.offer w).draws = s.draws := rfl
@[simp] theorem offer_everIll (s : State) (w : Word) : (s.offer w).everIll = s.everIll := rfl

@[simp] theorem setChan_chan_self (s : State) (ch : Chan) (c : Channel) : (s.setChan ch c).chan ch = c :=
  PerChannel.get_set_self _ _ _

theorem setChan_chan_ne (s : State) {ch k : Chan} (c : Channel) (h : k ≠ ch) : (s.setChan ch c).chan k = s.chan k :=
  PerChannel.get_set_ne _ _ h

theorem setChan_chan (s : State) (ch k : Chan) (c : Channel) :
    (s.setChan ch c).chan k = if k = ch then c else s.chan k :=
  PerChannel.get_set _ _ _ _

@[simp] theorem mapChans_chan (s : State) (f : Chan → Channel → Channel) (ch : Chan) :
    (s.mapChans f).chan ch = f ch (s.chan ch) :=
  PerChannel.get_map _ _ _

@[simp] theorem filterAll_chan (s : State) (ch : Chan) :
    s.filterAll.chan ch = (s.chan ch).filterPasses s.cfg s.draws ch :=
  mapChans_chan _ _ _

@[simp] theorem gapfillAll_chan (s : State) (ch : Chan) : s.gapfillAll.chan ch = (s.chan ch).gapfill s.cfg.spc :=
  mapChans_chan _ _ _

@[simp] theorem clearFills_chan (s : State) (ch : Chan) :
    s.clearFills.chan ch = { s.chan ch with fill := 0 } :=
  mapChans_chan _ _ _

@[simp] theorem publishPacket_chan (s : State) (ch : Chan) :
    s.publishPacket.chan ch = { s.chan ch with fill := 0 } :=
  mapChans_chan _ _ _

@[simp] theorem resetWith_chan (cfg : Config) (ch : Chan) : (State.resetWith cfg).chan ch = Channel.zero cfg.spc :=
  PerChannel.get_fill _ _

@[simp] theorem resetBlock_chan (s : State) (ch : Chan) : s.resetBlock.chan ch = Channel.zero s.cfg.spc :=
  PerChannel.get_fill _ _

@[simp] theorem clearRate_chan (s : State) (ch : Chan) : s.clearRate.chan ch = s.chan ch := rfl
@[simp] theorem illegalCommand_chan (s : State) (ch : Chan) : s.illegalCommand.chan ch = s.chan ch := rfl
@[simp] theorem raiseFrame_chan (s : State) (ch : Chan) : s.raiseFrame.chan ch = s.chan ch := rfl
@[simp] theorem clearFrame_chan (s : State) (ch : Chan) : s.clearFrame.chan ch = s.chan ch := rfl
@[simp] theorem raiseReady_chan (s : State) (ch : Chan) : s.raiseReady.chan ch = s.chan ch := rfl
@[simp] theorem clearReady_chan (s : State) (ch : Chan) : s.clearReady.chan ch = s.chan ch := rfl
@[simp] theorem accept_chan (s : State) (rest : List Event) (ch : Chan) : (s.accept rest).chan ch = s.chan ch := rfl
@[simp] theorem offer_chan (s : State) (w : Word) (ch : Chan) : (s.offer w).chan ch = s.chan ch := rfl

/-- Two states that agree in every field, the rows one by one, are equal. -/
theorem ext_chan {s t : State} (hcfg : s.cfg = t.cfg) (hch : ∀ ch, s.chan ch = t.chan ch) (hr : s.rate = t.rate)
    (hv : s.rateValid = t.rateValid) (hse : s.rateSeeded = t.rateSeeded) (hp : s.prevTs = t.prevTs)
    (hf : s.framePending = t.framePending) (hre : s.ready = t.ready) (he : s.errIll = t.errIll)
    (hn : s.now = t.now) (hev : s.events = t.events) (hd : s.draws = t.draws) (hee : s.everIll = t.everIll) : s = t := by
  have hc : s.chans = t.chans := PerChannel.ext_get hch
  cases s; cases t
  simp only at hcfg hc hr hv hse hp hf hre he hn hev hd hee
  subst hcfg hc hr hv hse hp hf hre he hn hev hd hee
  rfl

@[simp] theorem measureRate_cfg (s : State) : s.measureRate.cfg = s.cfg := by
  unfold measureRate; split <;> (try split) <;> rfl

@[simp] theorem measureRate_framePending (s : State) : s.measureRate.framePending = s.framePending := by
  unfold measureRate; split <;> (try split) <;> rfl

@[simp] theorem measureRate_ready (s : State) : s.measureRate.ready = s.ready := by
  unfold measureRate; split <;> (try split) <;> rfl

@[simp] theorem measureRate_errIll (s : State) : s.measureRate.errIll = s.errIll := by
  unfold measureRate; split <;> (try split) <;> rfl

@[simp] theorem measureRate_now (s : State) : s.measureRate.now = s.now := by
  unfold measureRate; split <;> (try split) <;> rfl

@[simp] theorem measureRate_events (s : State) : s.measureRate.events = s.events := by
  unfold measureRate; split <;> (try split) <;> rfl

@[simp] theorem measureRate_draws (s : State) : s.measureRate.draws = s.draws := by
  unfold measureRate; split <;> (try split) <;> rfl

@[simp] theorem measureRate_everIll (s : State) : s.measureRate.everIll = s.everIll := by
  unfold measureRate; split <;> (try split) <;> rfl

@[simp] theorem measureRate_chans (s : State) : s.measureRate.chans = s.chans := by
  unfold measureRate; split <;> (try split) <;> rfl

@[simp] theorem measureRate_chan (s : State) (ch : Chan) : s.measureRate.chan ch = s.chan ch :=
  congrArg (fun p => PerChannel.get p ch) (measureRate_chans s)

@[simp] theorem measureRate_prevTs (s : State) : s.measureRate.prevTs = s.now := by
  unfold measureRate; split <;> (try split) <;> rfl

@[simp] theorem measureRate_rateSeeded (s : State) : s.measureRate.rateSeeded = true := by
  unfold measureRate; split <;> (try split) <;> simp_all

@[simp] theorem takeRecord_cfg (s : State) (rid : ChannelId) (rval : BitVec 12) :
    (s.takeRecord rid rval).cfg = s.cfg := by
  unfold takeRecord; split <;> (try split) <;> rfl

@[simp] theorem takeRecord_rate (s : State) (rid : ChannelId) (rval : BitVec 12) :
    (s.takeRecord rid rval).rate = s.rate := by
  unfold takeRecord; split <;> (try split) <;> rfl

@[simp] theorem takeRecord_rateValid (s : State) (rid : ChannelId) (rval : BitVec 12) :
    (s.takeRecord rid rval).rateValid = s.rateValid := by
  unfold takeRecord; split <;> (try split) <;> rfl

@[simp] theorem takeRecord_rateSeeded (s : State) (rid : ChannelId) (rval : BitVec 12) :
    (s.takeRecord rid rval).rateSeeded = s.rateSeeded := by
  unfold takeRecord; split <;> (try split) <;> rfl

@[simp] theorem takeRecord_prevTs (s : State) (rid : ChannelId) (rval : BitVec 12) :
    (s.takeRecord rid rval).prevTs = s.prevTs := by
  unfold takeRecord; split <;> (try split) <;> rfl

@[simp] theorem takeRecord_framePending (s : State) (rid : ChannelId) (rval : BitVec 12) :
    (s.takeRecord rid rval).framePending = s.framePending := by
  unfold takeRecord; split <;> (try split) <;> rfl

@[simp] theorem takeRecord_ready (s : State) (rid : ChannelId) (rval : BitVec 12) :
    (s.takeRecord rid rval).ready = s.ready := by
  unfold takeRecord; split <;> (try split) <;> rfl

@[simp] theorem takeRecord_errIll (s : State) (rid : ChannelId) (rval : BitVec 12) :
    (s.takeRecord rid rval).errIll = s.errIll := by
  unfold takeRecord; split <;> (try split) <;> rfl

@[simp] theorem takeRecord_now (s : State) (rid : ChannelId) (rval : BitVec 12) :
    (s.takeRecord rid rval).now = s.now := by
  unfold takeRecord; split <;> (try split) <;> rfl

@[simp] theorem takeRecord_events (s : State) (rid : ChannelId) (rval : BitVec 12) :
    (s.takeRecord rid rval).events = s.events := by
  unfold takeRecord; split <;> (try split) <;> rfl

@[simp] theorem takeRecord_draws (s : State) (rid : ChannelId) (rval : BitVec 12) :
    (s.takeRecord rid rval).draws = s.draws := by
  unfold takeRecord; split <;> (try split) <;> rfl

@[simp] theorem takeRecord_everIll (s : State) (rid : ChannelId) (rval : BitVec 12) :
    (s.takeRecord rid rval).everIll = s.everIll := by
  unfold takeRecord; split <;> (try split) <;> rfl

end Sys2Proof.Machine.State
end

