-- ==== Sys2Proof/Laws/Exec.lean ====
section
/-! SUPPORT. What each command and each input does, said once: provers cite these and unfold nothing. -/

namespace Sys2Proof.Machine

@[simp] theorem exec_nop (s : State) : exec .nop s = .next s := rfl

@[simp] theorem exec_record (rid : ChannelId) (rval : BitVec 12) (s : State) :
    exec (.record rid rval) s = .next (s.takeRecord rid rval) := rfl

@[simp] theorem exec_gapfill (s : State) : exec .gapfill s = .next s.gapfillAll := rfl

@[simp] theorem exec_filter (s : State) : exec .filter s = .next s.filterAll := rfl

@[simp] theorem exec_rate (s : State) : exec .rate s = .next s.measureRate := rfl

@[simp] theorem exec_publish (s : State) : exec .publish s = .next s.publishPacket := rfl

@[simp] theorem exec_cycle (s : State) :
    exec .cycle s = .next s.gapfillAll.filterAll.measureRate.publishPacket := rfl

@[simp] theorem exec_fack (s : State) : exec .fack s = .next s.clearFrame := rfl

@[simp] theorem exec_rack (s : State) : exec .rack s = .next s.clearReady := rfl

@[simp] theorem exec_start (s : State) :
    exec .start s = .next s.clearFills.clearRate.clearFrame.clearReady := rfl

@[simp] theorem exec_reset (s : State) : exec .reset s = .next s.resetBlock := rfl

/-- LP on a legal operand filters its row; on another it is IllegalCommand. -/
theorem exec_lp (ch : BitVec 4) (s : State) :
    (∃ k, lpRowOf s.cfg ch = some k ∧ exec (.lp ch) s = .next (s.setChan k ((s.chan k).lpPass s.cfg s.draws k)))
    ∨ (lpRowOf s.cfg ch = none ∧ exec (.lp ch) s = .next s.illegalCommand) := by
  cases h : lpRowOf s.cfg ch with
  | none => exact .inr ⟨rfl, by simp only [exec, execLp, h]⟩
  | some k => exact .inl ⟨k, rfl, by simp only [exec, execLp, h]⟩

/-- FD on a legal operand filters its row; on another it is IllegalCommand. -/
theorem exec_fd (ch : BitVec 4) (s : State) :
    (∃ k, fdRowOf s.cfg ch = some k ∧ exec (.fd ch) s = .next (s.setChan k ((s.chan k).fdPass s.cfg s.draws k)))
    ∨ (fdRowOf s.cfg ch = none ∧ exec (.fd ch) s = .next s.illegalCommand) := by
  cases h : fdRowOf s.cfg ch with
  | none => exact .inr ⟨rfl, by simp only [exec, execFd, h]⟩
  | some k => exact .inl ⟨k, rfl, by simp only [exec, execFd, h]⟩

theorem exec_lp_of_row {cfg : Config} {ch : BitVec 4} {k : Chan} (s : State) (hc : s.cfg = cfg)
    (h : lpRowOf cfg ch = some k) : exec (.lp ch) s = .next (s.setChan k ((s.chan k).lpPass cfg s.draws k)) := by
  subst hc; simp only [exec, execLp, h]

theorem exec_fd_of_row {cfg : Config} {ch : BitVec 4} {k : Chan} (s : State) (hc : s.cfg = cfg)
    (h : fdRowOf cfg ch = some k) : exec (.fd ch) s = .next (s.setChan k ((s.chan k).fdPass cfg s.draws k)) := by
  subst hc; simp only [exec, execFd, h]

/-- The operand of LP that names row k is legal where LP_EN = 1. -/
theorem lpRowOf_ofNat {cfg : Config} (h : cfg.lpEn = true) (k : Chan) :
    lpRowOf cfg (BitVec.ofNat 4 k.val) = some k := by
  unfold lpRowOf lpOperandOk
  rw [h]
  fin_cases k <;> rfl

/-- The operand of FD that names row 1, 3 or 5 is legal where FD_EN = 1. -/
theorem fdRowOf_ofNat {cfg : Config} (h : cfg.fdEn = true) {k : Chan} (hk : isFdRow k = true) :
    fdRowOf cfg (BitVec.ofNat 4 k.val) = some k := by
  unfold fdRowOf fdOperandOk
  rw [h]
  revert hk
  fin_cases k <;> first | (intro _; rfl) | (intro hk; exact absurd hk (by decide))

/-- Only rows 1, 3 and 5 are rows of a legal FD. -/
theorem isFdRow_of_fdRowOf {cfg : Config} {ch : BitVec 4} {k : Chan} (h : fdRowOf cfg ch = some k) :
    isFdRow k = true := by
  unfold fdRowOf fdOperandOk at h
  split at h
  · rename_i hc
    simp only [Bool.and_eq_true, Bool.or_eq_true, beq_iff_eq] at hc
    rcases hc.2 with (rfl | rfl) | rfl <;> (cases h; decide)
  · cases h

/-- LP has no row exactly where its operand is illegal (R53 condition 5). -/
theorem lpRowOf_eq_none {cfg : Config} {ch : BitVec 4} : lpRowOf cfg ch = none ↔ lpOperandOk cfg ch = false := by
  unfold lpRowOf lpOperandOk
  cases cfg.lpEn
  · simp
  · simp only [Bool.true_and]
    revert ch
    decide

/-- FD has no row exactly where its operand is illegal (R53 condition 6). -/
theorem fdRowOf_eq_none {cfg : Config} {ch : BitVec 4} : fdRowOf cfg ch = none ↔ fdOperandOk cfg ch = false := by
  unfold fdRowOf fdOperandOk
  cases cfg.fdEn
  · simp
  · simp only [Bool.true_and]
    revert ch
    decide

/-- A record whose id is nowhere in the pattern has no row (R68). -/
theorem matchRow_none {p : PerChannel ChannelId} {rid : ChannelId} (h : ∀ k, p.get k ≠ rid) : matchRow p rid = none := by
  simp only [matchRow, PerChannel.order, firstMatch, h, if_false]

/-- The row of a record is the first one whose pattern entry is its id (R68). -/
theorem matchRow_first {p : PerChannel ChannelId} {rid : ChannelId} {k : Chan} (h : p.get k = rid)
    (hj : ∀ j, j < k → p.get j ≠ rid) : matchRow p rid = some k := by
  have h0 := hj 0; have h1 := hj 1; have h2 := hj 2; have h3 := hj 3; have h4 := hj 4
  simp only [matchRow, PerChannel.order, firstMatch]
  revert h h0 h1 h2 h3 h4
  fin_cases k <;> intro h h0 h1 h2 h3 h4
  · exact if_pos h
  · exact (if_neg (h0 (by decide))).trans (if_pos h)
  · exact (if_neg (h0 (by decide))).trans ((if_neg (h1 (by decide))).trans (if_pos h))
  · exact (if_neg (h0 (by decide))).trans ((if_neg (h1 (by decide))).trans ((if_neg (h2 (by decide))).trans (if_pos h)))
  · exact (if_neg (h0 (by decide))).trans ((if_neg (h1 (by decide))).trans ((if_neg (h2 (by decide))).trans
      ((if_neg (h3 (by decide))).trans (if_pos h))))
  · exact (if_neg (h0 (by decide))).trans ((if_neg (h1 (by decide))).trans ((if_neg (h2 (by decide))).trans
      ((if_neg (h3 (by decide))).trans ((if_neg (h4 (by decide))).trans (if_pos h)))))

/-- All that a step can do. -/
theorem step_cases {s t : State} (h : step s = .next t) :
    (s.events = [] ∧ t = s)
    ∨ (∃ rest, s.events = .frameReady :: rest ∧ t = { s with events := rest }.raiseFrame)
    ∨ (∃ x rest, s.events = .timestamp x :: rest ∧ t = { s with events := rest, now := x })
    ∨ (∃ rest, s.events = .powerOn :: rest ∧ t = { s with events := rest }.resetBlock)
    ∨ (∃ w rest e, s.events = .command w :: rest ∧ decode s.cfg w = .error e ∧ t = (s.accept rest).illegalCommand)
    ∨ (∃ w rest i, s.events = .command w :: rest ∧ decode s.cfg w = .ok i ∧ exec i (s.accept rest) = .next t) := by
  unfold step State.take at h
  cases he : s.events with
  | nil => rw [he] at h; simp only at h; cases h; simp
  | cons ev rest =>
    rw [he] at h
    cases ev with
    | command w =>
      simp only [State.accept_cfg] at h
      cases hd : decode s.cfg w with
      | ok i => rw [hd] at h; simp only at h; simp [hd, h]
      | error e => rw [hd] at h; simp only at h; cases h; simp [hd]
    | partialWrite n v => simp at h
    | frameReady => simp only at h; cases h; simp
    | timestamp x => simp only at h; cases h; simp
    | powerOn => simp only at h; cases h; simp

/-- The step on a command word. -/
theorem step_command {s : State} {w : Word} {rest : List Event} (h : s.events = .command w :: rest) :
    step s = match decode s.cfg w with
      | .ok i => exec i (s.accept rest)
      | .error _ => .next (s.accept rest).illegalCommand := by
  unfold step State.take
  rw [h]
  rfl

end Sys2Proof.Machine
end

