-- ==== Sys2Proof/Laws/Float32.lean ====
section
/-! SUPPORT. Binary32 (00_scope.md R10): a pattern put together and read back, what every operation's result is, and the
grid of finite values around a rounded quotient. -/

namespace Sys2Proof.Machine

/-- A number of units that a finite pattern can stand for: below 2^128, and a whole number of its last place. -/
def representable (u : Nat) : Prop := u < overflowUnits ∧ 2 ^ lastPlace u 1 ∣ u

/-- A number that a pattern can stand for. -/
def FVal.isPattern : FVal → Prop
  | .nan => True
  | .inf _ => True
  | .fin _ u => representable u

theorem overflowUnits_eq : overflowUnits = 2 ^ 24 * 2 ^ 253 := by
  unfold overflowUnits unitsPerOne; rw [← pow_add, ← pow_add]

theorem lastPlace_one (u : Nat) : lastPlace u 1 = Nat.log2 u - 23 := by unfold lastPlace; rw [Nat.div_one]

theorem lastPlace_small {u : Nat} (h : u < 2 ^ 24) : lastPlace u 1 = 0 := by
  rw [lastPlace_one]
  by_cases h0 : u = 0
  · subst h0; rfl
  · have := (Nat.log2_lt h0).2 h
    omega

/-- The significand of a representable number at or above 2^24 units has 24 bits. -/
theorem significand_bounds {u : Nat} (h : 2 ^ 24 ≤ u) :
    2 ^ 23 * 2 ^ lastPlace u 1 ≤ u ∧ u < 2 ^ 24 * 2 ^ lastPlace u 1 ∧ Nat.log2 u = 23 + lastPlace u 1 := by
  have h0 : u ≠ 0 := by have : 0 < 2 ^ 24 := by positivity
                        omega
  have hl : 24 ≤ Nat.log2 u := (Nat.le_log2 h0).2 h
  have he : Nat.log2 u = 23 + lastPlace u 1 := by rw [lastPlace_one]; omega
  refine ⟨?_, ?_, he⟩
  · rw [← pow_add, ← he]; exact Nat.log2_self_le h0
  · rw [← pow_add, show 24 + lastPlace u 1 = Nat.log2 u + 1 by omega]; exact Nat.lt_log2_self

/-- The sign of a pattern. -/
theorem sign_append (neg : Bool) (x : BitVec 31) : (signBit neg ++ x).getLsbD 31 = neg := by
  rw [BitVec.getLsbD_append]; cases neg <;> simp [signBit]

/-- The exponent field of a pattern. -/
theorem exponent_append (neg : Bool) (n : Nat) (h : n < 2 ^ 31) :
    ((signBit neg ++ BitVec.ofNat 31 n).extractLsb' 23 8).toNat = n / 2 ^ 23 := by
  have : (signBit neg ++ BitVec.ofNat 31 n).extractLsb' 23 8 = (BitVec.ofNat 31 n).extractLsb' 23 8 := by
    apply BitVec.eq_of_getLsbD_eq
    intro i hi
    rw [BitVec.getLsbD_extractLsb', BitVec.getLsbD_append, BitVec.getLsbD_extractLsb']
    simp [show 23 + i < 31 by omega]
  rw [this, BitVec.extractLsb'_toNat, BitVec.toNat_ofNat, Nat.mod_eq_of_lt h, Nat.shiftRight_eq_div_pow,
    Nat.mod_eq_of_lt]
  exact Nat.div_lt_of_lt_mul (by rw [← pow_add]; exact h)

/-- The fraction field of a pattern. -/
theorem fraction_append (neg : Bool) (n : Nat) (h : n < 2 ^ 31) :
    ((signBit neg ++ BitVec.ofNat 31 n).extractLsb' 0 23).toNat = n % 2 ^ 23 := by
  have : (signBit neg ++ BitVec.ofNat 31 n).extractLsb' 0 23 = (BitVec.ofNat 31 n).extractLsb' 0 23 := by
    apply BitVec.eq_of_getLsbD_eq
    intro i hi
    rw [BitVec.getLsbD_extractLsb', BitVec.getLsbD_append, BitVec.getLsbD_extractLsb']
    simp [show i < 31 by omega]
  rw [this, BitVec.extractLsb'_toNat, BitVec.toNat_ofNat, Nat.mod_eq_of_lt h, Nat.shiftRight_zero]

/-- The number of a pattern put together from a sign, an exponent field below 255 and a fraction. -/
theorem ofBits_pattern (neg : Bool) (e f : Nat) (he : e < 255) (hf : f < 2 ^ 23) :
    FVal.ofBits (signBit neg ++ BitVec.ofNat 31 (e * 2 ^ 23 + f)) =
      if e = 0 then .fin neg f else .fin neg ((2 ^ 23 + f) * 2 ^ (e - 1)) := by
  have hn : e * 2 ^ 23 + f < 2 ^ 31 := by omega
  have h1 : (e * 2 ^ 23 + f) / 2 ^ 23 = e := by omega
  have h2 : (e * 2 ^ 23 + f) % 2 ^ 23 = f := by omega
  unfold FVal.ofBits
  simp only [sign_append, exponent_append neg _ hn, fraction_append neg _ hn, h1, h2]
  rw [if_neg (by omega)]

/-- A representable number written as a pattern reads back as itself. -/
theorem ofBits_finBits (neg : Bool) {u : Nat} (h : representable u) : FVal.ofBits (finBits neg u) = .fin neg u := by
  unfold finBits
  by_cases hs : u < 2 ^ 24
  · rw [lastPlace_small hs]
    simp only [Nat.zero_mul, Nat.zero_add, pow_zero, Nat.div_one]
    have := ofBits_pattern neg (u / 2 ^ 23) (u % 2 ^ 23) (by omega) (by omega)
    rw [show u / 2 ^ 23 * 2 ^ 23 + u % 2 ^ 23 = u by omega] at this
    rw [this]
    split
    · congr 1; omega
    · rw [show u / 2 ^ 23 = 1 by omega]; congr 1; omega
  · obtain ⟨hlo, hhi, hlog⟩ := significand_bounds (Nat.le_of_not_lt hs)
    set p := lastPlace u 1 with hp
    have hp2 : 0 < 2 ^ p := by positivity
    have h23 : 2 ^ 23 ≤ u / 2 ^ p := (Nat.le_div_iff_mul_le hp2).2 hlo
    have h24 : u / 2 ^ p < 2 ^ 24 := (Nat.div_lt_iff_lt_mul hp2).2 hhi
    have hpb : p < 254 := by
      have h0 : u ≠ 0 := by omega
      have hu := h.1
      rw [overflowUnits_eq, ← pow_add] at hu
      have := (Nat.log2_lt h0).2 hu
      omega
    have := ofBits_pattern neg (p + 1) (u / 2 ^ p - 2 ^ 23) (by omega) (by omega)
    rw [show (p + 1) * 2 ^ 23 + (u / 2 ^ p - 2 ^ 23) = p * 2 ^ 23 + u / 2 ^ p by omega] at this
    rw [this, if_neg (by omega), show 2 ^ 23 + (u / 2 ^ p - 2 ^ 23) = u / 2 ^ p by omega, Nat.add_sub_cancel,
      Nat.div_mul_cancel h.2]

theorem ofBits_infBits (neg : Bool) : FVal.ofBits (infBits neg) = .inf neg := by cases neg <;> decide

/-- The exponent and the fraction of a NaN pattern made from 24 bits. -/
theorem nanBits_fields (p : BitVec 24) :
    (nanBits p).extractLsb' 23 8 = 0xFF#8
      ∧ (nanBits p).extractLsb' 0 23 = if p.extractLsb' 0 23 = 0#23 then 1#23 else p.extractLsb' 0 23 := by
  unfold nanBits
  constructor
  · apply BitVec.eq_of_getLsbD_eq
    intro i hi
    rw [BitVec.getLsbD_extractLsb', BitVec.getLsbD_append, BitVec.getLsbD_append]
    simp [hi]
  · apply BitVec.eq_of_getLsbD_eq
    intro i hi
    rw [BitVec.getLsbD_extractLsb', BitVec.getLsbD_append]
    simp [hi]

theorem isNanPattern_nanBits (p : BitVec 24) : isNanPattern (nanBits p) := by
  refine ⟨(nanBits_fields p).1, ?_⟩
  rw [(nanBits_fields p).2]
  split
  · decide
  · assumption

/-- A NaN pattern stands for a NaN. -/
theorem ofBits_of_isNanPattern {f : F32} (h : isNanPattern f) : FVal.ofBits f = .nan := by
  unfold FVal.ofBits
  have h2 : (f.extractLsb' 0 23).toNat ≠ 0 := fun h0 => h.2 (BitVec.eq_of_toNat_eq h0)
  simp only [h.1]
  exact (if_pos rfl).trans (if_neg h2)

theorem ofBits_freeNan (draw : Nat) (site : NanSite) : FVal.ofBits (freeNan draw site) = .nan :=
  ofBits_of_isNanPattern (isNanPattern_nanBits _)

/-- A number written as a pattern reads back as itself, whatever NaN pattern stands for a NaN. -/
theorem ofBits_toBits {v : FVal} {nan : F32} (h : v.isPattern) (hn : FVal.ofBits nan = .nan) :
    FVal.ofBits (v.toBits nan) = v := by
  cases v with
  | nan => exact hn
  | inf neg => exact ofBits_infBits neg
  | fin neg u => exact ofBits_finBits neg h

/-! Rounding. -/

/-- The nearest integer to n / d is the floor or one more. -/
theorem divNearestEven_bounds (n d : Nat) : n / d ≤ divNearestEven n d ∧ divNearestEven n d ≤ n / d + 1 := by
  unfold divNearestEven
  dsimp only
  split
  · omega
  · split <;> omega

/-- The quotient at the last place has at most 24 bits, and exactly 24 where the last place is above a unit. -/
theorem quotient_bounds (n d : Nat) :
    n / (d * 2 ^ lastPlace n d) < 2 ^ 24 ∧ (0 < lastPlace n d → 2 ^ 23 ≤ n / (d * 2 ^ lastPlace n d)) := by
  rw [← Nat.div_div_eq_div_mul]
  generalize hx : n / d = x
  have hl : lastPlace n d = lastPlace x 1 := by unfold lastPlace; rw [hx, Nat.div_one]
  rw [hl]
  by_cases hs : x < 2 ^ 24
  · rw [lastPlace_small hs]; simp; exact hs
  · obtain ⟨hlo, hhi, -⟩ := significand_bounds (Nat.le_of_not_lt hs)
    have hp2 : 0 < 2 ^ lastPlace x 1 := by positivity
    exact ⟨(Nat.div_lt_iff_lt_mul hp2).2 hhi, fun _ => (Nat.le_div_iff_mul_le hp2).2 hlo⟩

theorem log2_mul_pow {q k : Nat} (h : q ≠ 0) : Nat.log2 (q * 2 ^ k) = Nat.log2 q + k := by
  have hq : q * 2 ^ k ≠ 0 := by positivity
  apply Nat.le_antisymm
  · have : Nat.log2 (q * 2 ^ k) < Nat.log2 q + k + 1 := by
      rw [Nat.log2_lt hq, show Nat.log2 q + k + 1 = (Nat.log2 q + 1) + k by omega, pow_add]
      exact Nat.mul_lt_mul_of_pos_right Nat.lt_log2_self (by positivity)
    omega
  · rw [Nat.le_log2 hq, pow_add]
    exact Nat.mul_le_mul_right _ (Nat.log2_self_le h)

/-- A whole number of at most 24 bits, or 2^24, times a power of two is a multiple of its own last place. -/
theorem lastPlace_dvd {q k : Nat} (h : q ≤ 2 ^ 24) (hk : 0 < k → 2 ^ 23 ≤ q) :
    2 ^ lastPlace (q * 2 ^ k) 1 ∣ q * 2 ^ k := by
  by_cases h0 : q = 0
  · subst h0; simp
  · rw [lastPlace_one, log2_mul_pow h0]
    by_cases he : q = 2 ^ 24
    · subst he
      rw [← pow_add, Nat.log2_two_pow]
      exact pow_dvd_pow _ (by omega)
    · have : Nat.log2 q < 24 := (Nat.log2_lt h0).2 (by omega)
      exact Dvd.dvd.mul_left (pow_dvd_pow _ (by omega)) _

theorem roundUnits_dvd (n d : Nat) : 2 ^ lastPlace (roundUnits n d) 1 ∣ roundUnits n d := by
  obtain ⟨h1, h2⟩ := quotient_bounds n d
  obtain ⟨h3, h4⟩ := divNearestEven_bounds n (d * 2 ^ lastPlace n d)
  exact lastPlace_dvd (by omega) (fun hk => (h2 hk).trans h3)

/-- The result of a rounding is a number that a pattern can stand for. -/
theorem ofExact_isPattern (neg : Bool) (n d : Nat) : (FVal.ofExact neg n d).isPattern := by
  unfold FVal.ofExact
  split
  · trivial
  · exact ⟨by omega, roundUnits_dvd n d⟩

theorem zero_isPattern (neg : Bool) : (FVal.fin neg 0).isPattern := ⟨by rw [overflowUnits_eq]; positivity, dvd_zero _⟩

/-- The result of a sum is a number that a pattern can stand for. -/
theorem fadd_isPattern (a b : FVal) : (fadd a b).isPattern := by
  cases a <;> cases b <;> simp only [fadd] <;> try trivial
  · split <;> trivial
  · split
    · exact zero_isPattern _
    · exact ofExact_isPattern _ _ _

/-- The result of a difference is a number that a pattern can stand for. -/
theorem fsub_isPattern (a b : FVal) : (fsub a b).isPattern := fadd_isPattern _ _

/-- The result of a product is a number that a pattern can stand for. -/
theorem fmul_isPattern (a b : FVal) : (fmul a b).isPattern := by
  cases a <;> cases b <;> simp only [fmul] <;> try trivial
  · split <;> trivial
  · split <;> trivial
  · exact ofExact_isPattern _ _ _

/-- Every finite pattern stands for a representable number. -/
theorem ofBits_isPattern (f : F32) : (FVal.ofBits f).isPattern := by
  unfold FVal.ofBits
  dsimp only
  have hf : (f.extractLsb' 0 23).toNat < 2 ^ 23 := BitVec.isLt _
  have he : (f.extractLsb' 23 8).toNat < 2 ^ 8 := BitVec.isLt _
  split
  · split <;> trivial
  · split
    · refine ⟨?_, ?_⟩
      · rw [overflowUnits_eq]
        exact (hf.trans (Nat.pow_lt_pow_right (by omega) (by omega))).trans_le (Nat.le_mul_of_pos_right _ (by positivity))
      rw [lastPlace_small (by omega)]; exact one_dvd _
    · refine ⟨?_, lastPlace_dvd (by omega) (fun _ => by omega)⟩
      rw [overflowUnits_eq]
      calc (2 ^ 23 + (f.extractLsb' 0 23).toNat) * 2 ^ ((f.extractLsb' 23 8).toNat - 1)
          < 2 ^ 24 * 2 ^ ((f.extractLsb' 23 8).toNat - 1) :=
            Nat.mul_lt_mul_of_pos_right (by omega) (by positivity)
        _ ≤ 2 ^ 24 * 2 ^ 253 := Nat.mul_le_mul_left _ (Nat.pow_le_pow_right (by omega) (by omega))

/-- No representable number lies strictly between two neighbours of the grid at the last place of n / d. -/
theorem grid_gap (n d : Nat) {u : Nat} (hu : representable u) :
    u ≤ n / (d * 2 ^ lastPlace n d) * 2 ^ lastPlace n d
      ∨ (n / (d * 2 ^ lastPlace n d) + 1) * 2 ^ lastPlace n d ≤ u := by
  obtain ⟨-, h2⟩ := quotient_bounds n d
  set p := lastPlace n d
  set q := n / (d * 2 ^ p)
  by_contra hc
  push Not at hc
  obtain ⟨hlo, hhi⟩ := hc
  have hdvd : 2 ^ p ∣ u := by
    by_cases hp : p = 0
    · rw [hp]; exact one_dvd _
    · have hq := h2 (by omega)
      have hu23 : 2 ^ (23 + p) ≤ u := by
        rw [pow_add]; exact (Nat.mul_le_mul_right _ hq).trans hlo.le
      have hu0 : u ≠ 0 := by
        have : 0 < 2 ^ (23 + p) := by positivity
        omega
      have := (Nat.le_log2 hu0).2 hu23
      refine dvd_trans (pow_dvd_pow 2 ?_) hu.2
      rw [lastPlace_one]; omega
  obtain ⟨k, rfl⟩ := hdvd
  rw [Nat.mul_comm] at hlo
  rw [Nat.mul_comm (q + 1)] at hhi
  have h1 := Nat.lt_of_mul_lt_mul_left hlo
  have h3 := Nat.lt_of_mul_lt_mul_left hhi
  omega

end Sys2Proof.Machine
end

