-- ==== Sys2Proof/Laws/PerInstr.lean ====
section
/-! SUPPORT. Laws said of every command as syntax, one lemma per constructor: the word of a command reads back as that
command, field by field (30_encoding.md R49 to R52). -/

namespace Sys2Proof.Laws.ReadsBack

/-- The word of the command reads back as the command. -/
def Statement (i : Instr) : Prop := decodeFields (encode i) = .ok i

theorem nop : Statement .nop := by unfold Statement; decide

theorem record (rid : ChannelId) (rval : BitVec 12) : Statement (.record rid rval) := by
  unfold Statement
  simp only [decodeFields, encode]
  rw [opField_formatR]
  simp only [readFormatR]
  rw [zeroR_formatR, ridField_formatR, rvalField_formatR]
  rfl

theorem gapfill : Statement .gapfill := by unfold Statement; decide

theorem fd (ch : BitVec 4) : Statement (.fd ch) := by
  unfold Statement
  simp only [decodeFields, encode]
  rw [opField_formatC]
  simp only [readFormatC]
  rw [zeroC_formatC, chField_formatC]
  rfl

theorem lp (ch : BitVec 4) : Statement (.lp ch) := by
  unfold Statement
  simp only [decodeFields, encode]
  rw [opField_formatC]
  simp only [readFormatC]
  rw [zeroC_formatC, chField_formatC]
  rfl

theorem filter : Statement .filter := by unfold Statement; decide
theorem rate : Statement .rate := by unfold Statement; decide
theorem publish : Statement .publish := by unfold Statement; decide
theorem cycle : Statement .cycle := by unfold Statement; decide
theorem fack : Statement .fack := by unfold Statement; decide
theorem rack : Statement .rack := by unfold Statement; decide
theorem start : Statement .start := by unfold Statement; decide
theorem reset : Statement .reset := by unfold Statement; decide

end Sys2Proof.Laws.ReadsBack

namespace Sys2Proof

/-- A format N read that succeeds gives its command from that command's word. -/
theorem encode_of_readFormatN {w : Word} {i j : Instr} {n : Nat} (h : readFormatN w i = .ok j)
    (ho : (opField w).toNat = n) (he : encode i = BitVec.ofNat 4 n ++ 0#28) : encode j = w := by
  subst ho
  unfold readFormatN at h
  split at h
  · rename_i hz
    cases h
    have hw := word_formatN w
    rw [hz] at hw
    rw [he, BitVec.ofNat_toNat, BitVec.setWidth_eq, hw]
  · cases h

/-- A word that reads as a command is that command's word: no bit of it is ignored. -/
theorem encode_of_decodeFields {w : Word} {j : Instr} (h : decodeFields w = .ok j) : encode j = w := by
  have op {n : Nat} (ho : (opField w).toNat = n) : opField w = BitVec.ofNat 4 n := by subst ho; simp
  unfold decodeFields at h
  split at h <;> rename_i ho
  · exact encode_of_readFormatN h ho rfl
  · unfold readFormatR at h
    split at h
    · rename_i hz
      cases h
      have hw := word_formatR w
      rw [op ho, hz] at hw
      exact hw
    · cases h
  · exact encode_of_readFormatN h ho rfl
  · unfold readFormatC at h
    split at h
    · rename_i hz
      cases h
      have hw := word_formatC w
      rw [op ho, hz] at hw
      exact hw
    · cases h
  · unfold readFormatC at h
    split at h
    · rename_i hz
      cases h
      have hw := word_formatC w
      rw [op ho, hz] at hw
      exact hw
    · cases h
  all_goals first | exact encode_of_readFormatN h ho rfl | cases h

end Sys2Proof
end

