-- ==== Sys2Proof/Laws/Rows.lean ====
section
/-! SUPPORT. The sample rows under every operation that writes them: lengths, single samples, and that the state stays
well formed. -/

namespace Sys2Proof.Machine

theorem padRow_length {spc f : Nat} {row : List Sample} (h : row.length = spc) : (padRow spc f row).length = spc := by
  unfold padRow; split
  · simp; omega
  · exact h

@[simp] theorem fixFirst_length (row : List Sample) : (fixFirst row).length = row.length := by
  unfold fixFirst; split <;> simp

@[simp] theorem fixLast_length (spc : Nat) (row : List Sample) : (fixLast spc row).length = row.length := by
  unfold fixLast; split <;> simp

@[simp] theorem edgeRow_length (spc : Nat) (row : List Sample) : (edgeRow spc row).length = row.length := by
  unfold edgeRow; split <;> simp

@[simp] theorem filterPass_length {σ : Type} (step : Nat → σ → F32 → σ × F32) (i : Nat) (st : σ) (row : List Sample) :
    (filterPass step i st row).2.length = row.length := by
  induction row generalizing i st with
  | nil => rfl
  | cons v vs ih => simp [filterPass, ih]

/-- A sample after a write to the row. -/
theorem rowAt_set {row : List Sample} {i j : Nat} (v : Sample) (h : i < row.length) :
    rowAt (row.set i v) j = if j = i then v else rowAt row j := by
  unfold rowAt
  by_cases hj : j = i
  · subst hj; simp [h]
  · simp [Ne.symm hj, hj]

theorem rowAt_padRow {spc f i : Nat} {row : List Sample} (h : row.length = spc) (hi : i < spc) :
    rowAt (padRow spc f row) i = padded spc f (rowAt row) i := by
  unfold padRow padded
  by_cases hf : 0 < f ∧ f < spc
  · rw [if_pos hf]
    by_cases hfi : f ≤ i
    · rw [if_pos ⟨hf.1, hf.2, hfi⟩]
      unfold rowAt
      simp only [List.getD_eq_getElem?_getD]
      rw [List.getElem?_append_right (by simp; omega), List.getElem?_replicate, if_pos (by simp; omega)]
      rfl
    · rw [if_neg (by omega)]
      unfold rowAt
      simp only [List.getD_eq_getElem?_getD]
      rw [List.getElem?_append_left (by simp; omega), List.getElem?_take_of_lt (by omega)]
  · rw [if_neg hf, if_neg (by tauto)]

theorem rowAt_edgeRow {spc i : Nat} {row : List Sample} (h : row.length = spc) :
    rowAt (edgeRow spc row) i = lastFixed spc (firstFixed spc (rowAt row)) i := by
  unfold edgeRow
  by_cases h2 : 2 ≤ spc
  · have hfix : ∀ j, rowAt (fixFirst row) j = firstFixed spc (rowAt row) j := by
      intro j
      unfold fixFirst firstFixed
      by_cases h0 : rowAt row 0 = 0
      · rw [if_pos h0, rowAt_set _ (by omega)]; simp [h2, h0]
      · rw [if_neg h0, if_neg (by tauto)]
    rw [if_pos h2]
    unfold fixLast lastFixed
    rw [hfix, hfix]
    by_cases hl : firstFixed spc (rowAt row) (spc - 1) = 0
    · rw [if_pos hl, rowAt_set _ (by simp; omega), hfix]; simp [h2, hl]
    · rw [if_neg hl, hfix, if_neg (by tauto)]
  · rw [if_neg h2]
    unfold lastFixed firstFixed
    rw [if_neg (by tauto), if_neg (by tauto)]

/-- GAPFILL at one row, sample by sample. -/
theorem rowAt_gapfill {spc i : Nat} {c : Channel} (h : c.row.length = spc) (hi : i < spc) :
    rowAt (c.gapfill spc).row i = lastFixed spc (firstFixed spc (padded spc c.fill.toNat (rowAt c.row))) i := by
  have hp : ∀ j, j < spc → rowAt (padRow spc c.fill.toNat c.row) j = padded spc c.fill.toNat (rowAt c.row) j :=
    fun j hj => rowAt_padRow h hj
  show rowAt (edgeRow spc (padRow spc c.fill.toNat c.row)) i = _
  rw [rowAt_edgeRow (padRow_length h)]
  have hff : ∀ j, j < spc → firstFixed spc (rowAt (padRow spc c.fill.toNat c.row)) j =
      firstFixed spc (padded spc c.fill.toNat (rowAt c.row)) j := by
    intro j hj
    unfold firstFixed
    by_cases h2 : 2 ≤ spc
    · rw [hp 0 (by omega), hp 1 (by omega), hp j hj]
    · rw [if_neg (by tauto), if_neg (by tauto), hp j hj]
  unfold lastFixed
  by_cases h2 : 2 ≤ spc
  · rw [hff (spc - 1) (by omega), hff (spc - 2) (by omega), hff i hi]
  · rw [if_neg (by tauto), if_neg (by tauto), hff i hi]

@[simp] theorem gapfill_fill (spc : Nat) (c : Channel) : (c.gapfill spc).fill = c.fill := rfl
@[simp] theorem gapfill_lp (spc : Nat) (c : Channel) : (c.gapfill spc).lp = c.lp := rfl
@[simp] theorem gapfill_fd (spc : Nat) (c : Channel) : (c.gapfill spc).fd = c.fd := rfl
@[simp] theorem lpPass_fill (cfg : Config) (n : Nat) (ch : Chan) (c : Channel) : (c.lpPass cfg n ch).fill = c.fill := rfl
@[simp] theorem lpPass_fd (cfg : Config) (n : Nat) (ch : Chan) (c : Channel) : (c.lpPass cfg n ch).fd = c.fd := rfl
@[simp] theorem fdPass_fill (cfg : Config) (n : Nat) (ch : Chan) (c : Channel) : (c.fdPass cfg n ch).fill = c.fill := rfl
@[simp] theorem fdPass_lp (cfg : Config) (n : Nat) (ch : Chan) (c : Channel) : (c.fdPass cfg n ch).lp = c.lp := rfl

@[simp] theorem lpPass_length (cfg : Config) (n : Nat) (ch : Chan) (c : Channel) :
    (c.lpPass cfg n ch).row.length = c.row.length := by simp [Channel.lpPass]

@[simp] theorem fdPass_length (cfg : Config) (n : Nat) (ch : Chan) (c : Channel) :
    (c.fdPass cfg n ch).row.length = c.row.length := by simp [Channel.fdPass]

@[simp] theorem filterPasses_fill (cfg : Config) (n : Nat) (ch : Chan) (c : Channel) :
    (c.filterPasses cfg n ch).fill = c.fill := by
  unfold Channel.filterPasses; split <;> split <;> rfl

/-! Every operation that writes a row keeps it well formed. -/

theorem gapfill_wf {spc : Nat} {ch : Chan} {c : Channel} (h : c.wf spc ch) : (c.gapfill spc).wf spc ch :=
  ⟨by simp [Channel.gapfill, padRow_length h.1], h.2.1, h.2.2⟩

theorem append_wf {spc : Nat} {ch : Chan} {c : Channel} (v : Sample) (h : c.wf spc ch) (hs : spc ≤ 512)
    (hf : c.fill.toNat < spc) : (c.append v).wf spc ch := by
  refine ⟨by simpa [Channel.append] using h.1, ?_, h.2.2⟩
  show (c.fill + 1).toNat ≤ spc
  rw [BitVec.toNat_add]
  have : (1 : FillIndex).toNat = 1 := rfl
  omega

theorem lpPass_wf {spc : Nat} {ch : Chan} {c : Channel} (cfg : Config) (n : Nat) (k : Chan) (h : c.wf spc ch) :
    (c.lpPass cfg n k).wf spc ch := ⟨by simpa using h.1, h.2.1, h.2.2⟩

theorem fdPass_wf {spc : Nat} {ch : Chan} {c : Channel} (cfg : Config) (n : Nat) (k : Chan) (h : c.wf spc ch)
    (hk : isFdRow ch = true) : (c.fdPass cfg n k).wf spc ch :=
  ⟨by simpa using h.1, h.2.1, fun h' => absurd hk (by simp [h'])⟩

theorem filterPasses_wf {spc : Nat} {ch : Chan} {c : Channel} (cfg : Config) (n : Nat) (h : c.wf spc ch) :
    (c.filterPasses cfg n ch).wf spc ch := by
  unfold Channel.filterPasses
  split
  · rename_i hc
    simp only [Bool.and_eq_true] at hc
    split
    · exact lpPass_wf _ _ _ (fdPass_wf _ _ _ h hc.2)
    · exact fdPass_wf _ _ _ h hc.2
  · split
    · exact lpPass_wf _ _ _ h
    · exact h

theorem clearFill_wf {spc : Nat} {ch : Chan} {c : Channel} (h : c.wf spc ch) : ({ c with fill := 0 } : Channel).wf spc ch :=
  ⟨h.1, Nat.zero_le _, h.2.2⟩

theorem zero_wf (spc : Nat) (ch : Chan) : (Channel.zero spc).wf spc ch :=
  ⟨by simp [Channel.zero], Nat.zero_le _, fun _ => rfl⟩

/-- A written row keeps the state well formed where the row itself is. -/
theorem setChan_wf {s : State} {ch : Chan} {c : Channel} (h : s.wf) (hc : c.wf s.cfg.spc ch) : (s.setChan ch c).wf := by
  refine ⟨h.1, fun k => ?_⟩
  rw [State.setChan_chan]
  split
  · rename_i hk; subst hk; exact hc
  · exact h.2 k

end Sys2Proof.Machine
end

