-- ==== Sys2Proof/Laws/Race.lean ====
section
/-! SUPPORT. What the writes of each part of a command compose to (20_memory.md R41): the sample loops, the filter state,
and a loop over the rows. -/

namespace Sys2Proof.Machine

theorem applyWrites_nil (s : State) : applyWrites [] s = s := rfl

theorem applyWrites_cons (w : Write) (ws : List Write) (s : State) :
    applyWrites (w :: ws) s = applyWrites ws (w.apply s) := rfl

theorem applyWrites_append (a b : List Write) (s : State) :
    applyWrites (a ++ b) s = applyWrites b (applyWrites a s) := by
  simp [applyWrites, List.foldl_append]

theorem setChan_setChan (s : State) (ch : Chan) (c d : Channel) : (s.setChan ch c).setChan ch d = s.setChan ch d := by
  unfold State.setChan; simp

theorem setChan_self (s : State) (ch : Chan) : s.setChan ch (s.chan ch) = s := by
  unfold State.setChan State.chan; simp

/-- The stages of a list of writes are the states after each number of them. -/
theorem stagesFrom_eq (ws : List Write) (s : State) :
    stagesFrom ws s = (List.range (ws.length + 1)).map fun n => applyWrites (ws.take n) s := by
  induction ws generalizing s with
  | nil => rfl
  | cons w ws ih =>
    rw [List.length_cons, List.range_succ_eq_map]
    simp only [stagesFrom, List.map_cons, List.map_map, ih]
    rfl

theorem apply_cascadeWrites (s : State) (ch : Chan) (after : Cascade) :
    applyWrites (cascadeWrites ch after) s = s.setChan ch { s.chan ch with lp := after } := by
  simp [cascadeWrites, biquadWrites, applyWrites, Write.apply, Cascade.write, Biquad.write, setChan_setChan]

theorem apply_allPassWrites (s : State) (ch : Chan) (after : AllPass) :
    applyWrites (allPassWrites ch after) s = s.setChan ch { s.chan ch with fd := after } := by
  simp [allPassWrites, applyWrites, Write.apply, AllPass.write, setChan_setChan]

/-- The writes of a low-pass loop from sample i on compose to the rest of the pass. -/
theorem apply_lpPassWrites (step : Nat → Cascade → F32 → Cascade × F32) (ch : Chan) (vs : List Sample) :
    ∀ (pre : List Sample) (i : Nat) (st : Cascade) (s : State),
      (s.chan ch).lp = st → (s.chan ch).row = pre ++ vs → pre.length = i →
      applyWrites (passWrites step (cascadeWrites ch) ch i st vs) s =
        s.setChan ch { s.chan ch with lp := (filterPass step i st vs).1, row := pre ++ (filterPass step i st vs).2 } := by
  induction vs with
  | nil =>
    intro pre i st s h1 h2 h3
    simp only [passWrites, filterPass, applyWrites_nil]
    rw [← h1, ← h2]
    exact (setChan_self s ch).symm
  | cons v vs ih =>
    intro pre i st s h1 h2 h3
    simp only [passWrites, filterPass]
    rw [applyWrites_append, apply_cascadeWrites, applyWrites_cons, ih (pre ++ [f32ToI16 (step i st (i16ToF32 v)).2])]
    · simp [Write.apply, setChan_setChan]
    · simp [Write.apply]
    · simp [Write.apply, h2, ← h3]
    · simp [h3]

/-- The writes of a fractional-delay loop from sample i on compose to the rest of the pass. -/
theorem apply_fdPassWrites (step : Nat → AllPass → F32 → AllPass × F32) (ch : Chan) (vs : List Sample) :
    ∀ (pre : List Sample) (i : Nat) (st : AllPass) (s : State),
      (s.chan ch).fd = st → (s.chan ch).row = pre ++ vs → pre.length = i →
      applyWrites (passWrites step (allPassWrites ch) ch i st vs) s =
        s.setChan ch { s.chan ch with fd := (filterPass step i st vs).1, row := pre ++ (filterPass step i st vs).2 } := by
  induction vs with
  | nil =>
    intro pre i st s h1 h2 h3
    simp only [passWrites, filterPass, applyWrites_nil]
    rw [← h1, ← h2]
    exact (setChan_self s ch).symm
  | cons v vs ih =>
    intro pre i st s h1 h2 h3
    simp only [passWrites, filterPass]
    rw [applyWrites_append, apply_allPassWrites, applyWrites_cons, ih (pre ++ [f32ToI16 (step i st (i16ToF32 v)).2])]
    · simp [Write.apply, setChan_setChan]
    · simp [Write.apply]
    · simp [Write.apply, h2, ← h3]
    · simp [h3]

theorem apply_lpWrites (cfg : Config) (n : Nat) (ch : Chan) (s : State) :
    applyWrites (lpWrites cfg n ch (s.chan ch)) s = s.setChan ch ((s.chan ch).lpPass cfg n ch) := by
  unfold lpWrites
  rw [apply_lpPassWrites _ ch (s.chan ch).row [] 0 (s.chan ch).lp s rfl rfl rfl]
  rfl

theorem apply_fdWrites (cfg : Config) (n : Nat) (ch : Chan) (s : State) :
    applyWrites (fdWrites cfg n ch (s.chan ch)) s = s.setChan ch ((s.chan ch).fdPass cfg n ch) := by
  unfold fdWrites
  rw [apply_fdPassWrites _ ch (s.chan ch).row [] 0 (s.chan ch).fd s rfl rfl rfl]
  rfl

theorem apply_filterRowWrites (cfg : Config) (n : Nat) (ch : Chan) (s : State) :
    applyWrites (filterRowWrites cfg n ch (s.chan ch)) s = s.setChan ch ((s.chan ch).filterPasses cfg n ch) := by
  unfold filterRowWrites Channel.filterPasses
  split
  · rw [applyWrites_append, apply_fdWrites]
    split
    · have h := apply_lpWrites cfg n ch (s.setChan ch ((s.chan ch).fdPass cfg n ch))
      rw [State.setChan_chan_self] at h
      rw [h, setChan_setChan]
    · rfl
  · split
    · exact apply_lpWrites _ _ _ _
    · exact (setChan_self _ _).symm

/-- A loop that writes one value to n samples from index f on. -/
theorem apply_constWrites (ch : Chan) (v : Sample) :
    ∀ (n f : Nat) (s : State), (s.chan ch).row.length = f + n →
      applyWrites ((List.range' f n).map fun i => .sample ch i v) s =
        s.setChan ch { s.chan ch with row := (s.chan ch).row.take f ++ List.replicate n v } := by
  intro n
  induction n with
  | zero =>
    intro f s h
    simp only [List.range'_zero, List.map_nil, applyWrites_nil, List.replicate_zero, List.append_nil]
    rw [List.take_of_length_le (by omega)]
    exact (setChan_self s ch).symm
  | succ n ih =>
    intro f s h
    rw [List.range'_succ, List.map_cons, applyWrites_cons, ih]
    · simp only [Write.apply, setChan_setChan, State.setChan_chan_self]
      have hrow : ((s.chan ch).row.set f v).take (f + 1) ++ List.replicate n v =
          (s.chan ch).row.take f ++ List.replicate (n + 1) v := by
        apply List.ext_getElem
        · simp; omega
        · intro k h1 h2
          simp only [List.getElem_append, List.length_take, List.length_set, List.getElem_take, List.getElem_set,
            List.getElem_replicate]
          split <;> split <;> first | rfl | (split <;> first | rfl | omega) | omega
      rw [hrow]
    · simp [Write.apply]; omega

theorem apply_gapfillRowWrites (spc : Nat) (ch : Chan) (s : State) (hs : (s.chan ch).row.length = spc) :
    applyWrites (gapfillRowWrites spc ch (s.chan ch)) s = s.setChan ch ((s.chan ch).gapfill spc) := by
  unfold gapfillRowWrites Channel.gapfill
  rw [applyWrites_append]
  have h1 : applyWrites (padWrites spc ch (s.chan ch)) s =
      s.setChan ch { s.chan ch with row := padRow spc (s.chan ch).fill.toNat (s.chan ch).row } := by
    unfold padWrites padRow
    split
    · rw [apply_constWrites _ _ _ _ _ (by omega)]
    · exact (setChan_self s ch).symm
  rw [h1]
  unfold edgeWrites edgeRow
  generalize padRow spc (s.chan ch).fill.toNat (s.chan ch).row = r
  split
  · rw [applyWrites_append]
    have h2 : applyWrites (if rowAt r 0 = 0 then [Write.sample ch 0 (rowAt r 1)] else [])
        (s.setChan ch { s.chan ch with row := r }) = s.setChan ch { s.chan ch with row := fixFirst r } := by
      unfold fixFirst
      split
      · simp [applyWrites_cons, applyWrites_nil, Write.apply, setChan_setChan]
      · rfl
    rw [h2]
    unfold fixLast
    split
    · simp [applyWrites_cons, applyWrites_nil, Write.apply, setChan_setChan]
    · rfl
  · rfl

/-- A loop over the rows whose writes at each row touch that row alone. -/
theorem apply_rowsWrites (W : Chan → Channel → List Write) (F : Chan → Channel → Channel) (s : State)
    (h : ∀ ch (t : State), t.chan ch = s.chan ch →
      applyWrites (W ch (t.chan ch)) t = t.setChan ch (F ch (t.chan ch))) :
    applyWrites (PerChannel.order.flatMap fun ch => W ch (s.chan ch)) s = s.mapChans F := by
  have st : ∀ ch (t : State), t.chan ch = s.chan ch →
      applyWrites (W ch (s.chan ch)) t = t.setChan ch (F ch (s.chan ch)) := by
    intro ch t ht
    have := h ch t ht
    rwa [ht] at this
  simp only [PerChannel.order, List.flatMap_cons, List.flatMap_nil, List.append_nil, applyWrites_append]
  rw [st 0 s rfl, st 1 _ (by simp [State.setChan_chan]), st 2 _ (by simp [State.setChan_chan]),
    st 3 _ (by simp [State.setChan_chan]), st 4 _ (by simp [State.setChan_chan]), st 5 _ (by simp [State.setChan_chan])]
  apply State.ext_chan <;> try rfl
  intro ch
  fin_cases ch <;> simp [State.setChan_chan]

/-- The three writes of a measured interval. -/
theorem apply_measuredWrites (s : State) (r : F32) :
    applyWrites [.rate r, .rateValid true, .prevTs s.now] s = { s with rate := r, rateValid := true, prevTs := s.now } :=
  rfl

theorem apply_rateWrites (s : State) : applyWrites (rateWrites s) s = s.measureRate := by
  unfold rateWrites State.measureRate
  by_cases h : s.rateSeeded = true
  · rw [if_pos h, if_pos h]
    by_cases h2 : 0 < s.elapsed.toInt
    · rw [if_pos h2, if_pos h2]; exact apply_measuredWrites s _
    · rw [if_neg h2, if_neg h2]; rfl
  · rw [if_neg h, if_neg h]; rfl

theorem apply_fillClearWrites (s : State) : applyWrites fillClearWrites s = s.clearFills := by
  apply State.ext_chan <;> try rfl
  intro ch
  fin_cases ch <;> rfl

theorem apply_publishWrites (s : State) : applyWrites publishWrites s = s.publishPacket := by
  rw [publishWrites, applyWrites_cons, apply_fillClearWrites]
  rfl

theorem apply_startWrites (s : State) :
    applyWrites startWrites s = s.clearFills.clearRate.clearFrame.clearReady := by
  rw [startWrites, applyWrites_append, apply_fillClearWrites]
  rfl

/-! RESET makes its writes in any order (R84): each gives one item of state its reset value, so any two of them commute. -/

/-- The write gives an item of state its reset value (R28). -/
def Write.isReset : Write → Prop
  | .sample _ _ v => v = 0
  | .fill _ f => f = 0
  | .lp _ _ _ v => v = 0
  | .fd _ _ v => v = 0
  | .rate v => v = 0
  | .rateValid b => b = false
  | .rateSeeded b => b = false
  | .prevTs t => t = 0
  | .framePending b => b = false
  | .ready b => b = false
  | .clearErr => True
  | .illegal => False

/-- Two updates of single rows commute where they commute on one row. -/
theorem setChan_comm (s : State) (a b : Chan) (f g : Channel → Channel) (h : a = b → ∀ c, g (f c) = f (g c)) :
    (s.setChan a (f (s.chan a))).setChan b (g ((s.setChan a (f (s.chan a))).chan b)) =
      (s.setChan b (g (s.chan b))).setChan a (f ((s.setChan b (g (s.chan b))).chan a)) := by
  apply State.ext_chan <;> try rfl
  intro k
  by_cases hab : a = b
  · subst hab
    simp only [State.setChan_chan, if_true]
    split
    · exact h rfl _
    · rfl
  · simp only [State.setChan_chan, Ne.symm hab, hab, if_false]
    by_cases hka : k = a
    · subst hka; simp [hab]
    · simp [hka]

theorem sample_set_comm (row : List Sample) (i j : Nat) : (row.set i 0).set j 0 = (row.set j 0).set i (0 : Sample) := by
  by_cases h : i = j
  · subst h; rfl
  · exact List.set_comm 0 0 h

theorem cascade_write_comm (c : Cascade) (s1 s2 : Section2) (r1 r2 : LpReg) :
    (c.write s1 r1 0).write s2 r2 0 = (c.write s2 r2 0).write s1 r1 0 := by
  cases s1 <;> cases s2 <;> cases r1 <;> cases r2 <;> rfl

theorem allPass_write_comm (a : AllPass) (r1 r2 : FdReg) : (a.write r1 0).write r2 0 = (a.write r2 0).write r1 0 := by
  cases r1 <;> cases r2 <;> rfl

/-- The row that a write is about. -/
def Write.rowOf : Write → Option Chan
  | .sample ch _ _ => some ch
  | .fill ch _ => some ch
  | .lp ch _ _ _ => some ch
  | .fd ch _ _ => some ch
  | .rate _ => none
  | .rateValid _ => none
  | .rateSeeded _ => none
  | .prevTs _ => none
  | .framePending _ => none
  | .ready _ => none
  | .clearErr => none
  | .illegal => none

/-- What a write does to its row. -/
def Write.onChannel (w : Write) (c : Channel) : Channel :=
  match w with
  | .sample _ i v => { c with row := c.row.set i v }
  | .fill _ f => { c with fill := f }
  | .lp _ sec reg v => { c with lp := c.lp.write sec reg v }
  | .fd _ reg v => { c with fd := c.fd.write reg v }
  | .rate _ => c
  | .rateValid _ => c
  | .rateSeeded _ => c
  | .prevTs _ => c
  | .framePending _ => c
  | .ready _ => c
  | .clearErr => c
  | .illegal => c

/-- A write about a row updates that row. -/
theorem apply_of_rowOf {w : Write} {ch : Chan} (h : w.rowOf = some ch) (s : State) :
    w.apply s = s.setChan ch (w.onChannel (s.chan ch)) := by
  cases w <;> cases h <;> rfl

/-- A write about no row and an update of a row commute. -/
theorem apply_setChan {w : Write} (h : w.rowOf = none) (s : State) (ch : Chan) (c : Channel) :
    w.apply (s.setChan ch c) = (w.apply s).setChan ch c := by
  cases w <;> first | rfl | cases h

theorem apply_chan {w : Write} (h : w.rowOf = none) (s : State) (ch : Chan) : (w.apply s).chan ch = s.chan ch := by
  cases w <;> first | rfl | cases h

/-- Two writes of reset values commute on a row. -/
theorem onChannel_comm {x y : Write} (hx : x.isReset) (hy : y.isReset) (c : Channel) :
    y.onChannel (x.onChannel c) = x.onChannel (y.onChannel c) := by
  cases x <;> cases y <;> simp only [Write.isReset] at hx hy <;> (try subst hx) <;> (try subst hy) <;>
    first
    | rfl
    | simp only [Write.onChannel]; rw [sample_set_comm]
    | simp only [Write.onChannel]; rw [cascade_write_comm]
    | simp only [Write.onChannel]; rw [allPass_write_comm]

/-- Two writes of reset values about no row commute. -/
theorem apply_comm_off_rows {x y : Write} (hx : x.isReset) (hy : y.isReset) (h1 : x.rowOf = none) (h2 : y.rowOf = none)
    (s : State) : y.apply (x.apply s) = x.apply (y.apply s) := by
  cases x <;> (try cases h1) <;> cases y <;> (try cases h2) <;> simp only [Write.isReset] at hx hy <;>
    (try subst hx) <;> (try subst hy) <;> rfl

/-- Two writes of reset values commute. -/
theorem apply_comm_of_isReset {x y : Write} (hx : x.isReset) (hy : y.isReset) (s : State) :
    y.apply (x.apply s) = x.apply (y.apply s) := by
  cases h1 : x.rowOf with
  | none =>
    cases h2 : y.rowOf with
    | none => exact apply_comm_off_rows hx hy h1 h2 s
    | some b => rw [apply_of_rowOf h2, apply_of_rowOf h2, apply_setChan h1, apply_chan h1]
  | some a =>
    cases h2 : y.rowOf with
    | none => rw [apply_of_rowOf h1, apply_of_rowOf h1, apply_setChan h2, apply_chan h2]
    | some b =>
      rw [apply_of_rowOf h1, apply_of_rowOf h2, apply_of_rowOf h2, apply_of_rowOf h1]
      exact setChan_comm s a b x.onChannel y.onChannel fun _ c => onChannel_comm hx hy c

theorem isReset_of_mem_resetWrites {s : State} {w : Write} (h : w ∈ resetWrites s) : w.isReset := by
  simp only [resetWrites, List.mem_append, List.mem_flatMap, fillClearWrites, List.mem_map, cascadeWrites, biquadWrites,
    allPassWrites, List.mem_cons, List.not_mem_nil, or_false] at h
  rcases h with (((⟨_, _, _, _, rfl⟩ | ⟨_, _, rfl⟩) | ⟨_, _, h⟩) | ⟨_, _, h⟩) | h
  · rfl
  · rfl
  · rcases h with (rfl | rfl | rfl | rfl) | (rfl | rfl | rfl | rfl) <;> rfl
  · rcases h with rfl | rfl <;> rfl
  · rcases h with rfl | rfl | rfl | rfl | rfl | rfl | rfl <;> trivial

/-- RESET's writes compose to one state in every order. -/
theorem apply_perm_resetWrites {s : State} {ws : List Write} (h : ws.Perm (resetWrites s)) (t : State) :
    applyWrites ws t = applyWrites (resetWrites s) t :=
  List.Perm.foldl_eq' h
    (fun _ hx _ hy z => apply_comm_of_isReset (isReset_of_mem_resetWrites (h.mem_iff.1 hx))
      (isReset_of_mem_resetWrites (h.mem_iff.1 hy)) z) t

end Sys2Proof.Machine
end

