-- ==== Sys2Proof/Laws/Rounding.lean ====
section
/-! SUPPORT. Rounding to nearest, ties to even, over the rationals (00_scope.md R10): the rounded number is the nearest
representable one, and it overflows half a last place past the largest finite value. -/

namespace Sys2Proof.Machine

/-- No representable number is nearer to n / d than its rounding, and one as near is another only where the rounding's
significand is even. -/
theorem roundUnits_near (n d : Nat) (hd : 0 < d) {u : Nat} (hu : representable u) :
    |(n : ℚ) / d - roundUnits n d| ≤ |(n : ℚ) / d - u|
      ∧ (|(n : ℚ) / d - roundUnits n d| = |(n : ℚ) / d - u| → u ≠ roundUnits n d →
          divNearestEven n (d * 2 ^ lastPlace n d) % 2 = 0) := by
  have hg := grid_gap n d hu
  unfold roundUnits
  set p := lastPlace n d
  set D := d * 2 ^ p with hD
  have hDpos : 0 < D := by positivity
  have hDq : (0:ℚ) < D := by exact_mod_cast hDpos
  have hdq : (0:ℚ) < d := by exact_mod_cast hd
  set P := 2 ^ p with hP
  have hPq : (0:ℚ) < (P : ℕ) := by positivity
  set q := n / D with hq
  have hn : (n : ℚ) = q * D + (n % D : ℕ) := by
    have := Nat.div_add_mod n D
    rw [← hq] at this
    have h2 : ((D * q + n % D : ℕ) : ℚ) = n := by rw [this]
    rw [← h2]; push_cast; ring
  have hr := Nat.mod_lt n hDpos
  set r := n % D with hrr
  have hx : (n : ℚ)/d = q * P + r / d := by
    rw [hn, hD]; push_cast; field_simp
  have hrd : (r : ℚ) / d < P := by
    rw [div_lt_iff₀ hdq]; have : (r : ℚ) < D := by exact_mod_cast hr
    rw [hD] at this; push_cast at this; linarith
  have hr0 : (0:ℚ) ≤ (r:ℚ)/d := by positivity
  have hgq : (u : ℚ) ≤ q * P ∨ ((q:ℚ) + 1) * P ≤ u := by
    rcases hg with h | h
    · left; exact_mod_cast h
    · right; exact_mod_cast h
  unfold divNearestEven
  simp only [← hq, ← hrr]
  rw [hx]
  have h2r : 2 * r < D ↔ 2 * ((r:ℚ)/d) < P := by
    rw [show (2 * ((r:ℚ)/d) < P) ↔ (2 * (r:ℚ) < P * d) by rw [← mul_div_assoc, div_lt_iff₀ hdq]]
    rw [hD]; constructor <;> intro h
    · have : ((2 * r : ℕ):ℚ) < ((d * P : ℕ) : ℚ) := by exact_mod_cast h
      push_cast at this; linarith
    · have : ((2 * r : ℕ):ℚ) < ((d * P : ℕ) : ℚ) := by push_cast; linarith
      exact_mod_cast this
  have h3r : D < 2 * r ↔ P < 2 * ((r:ℚ)/d) := by
    rw [show (P < 2 * ((r:ℚ)/d)) ↔ (P * d < 2 * (r:ℚ)) by rw [← mul_div_assoc, lt_div_iff₀ hdq]]
    rw [hD]; constructor <;> intro h
    · have : ((d * P : ℕ) : ℚ) < ((2 * r : ℕ):ℚ) := by exact_mod_cast h
      push_cast at this; linarith
    · have : ((d * P : ℕ) : ℚ) < ((2 * r : ℕ):ℚ) := by push_cast; linarith
      exact_mod_cast this
  set y := (r:ℚ)/d with hy
  split
  · rename_i h
    rw [h2r] at h
    push_cast
    have e : |(q:ℚ) * P + y - q * P| = y := by rw [show (q:ℚ) * P + y - q * P = y by ring]; exact abs_of_nonneg hr0
    rw [e]
    rcases hgq with h1 | h1
    · rw [abs_of_nonneg (by linarith)]
      refine ⟨by linarith, fun he hne => ?_⟩
      exfalso; apply hne
      have : (u : ℚ) = q * P := by linarith
      exact_mod_cast this
    · rw [abs_of_nonpos (by linarith)]
      exact ⟨by linarith, fun he _ => by exfalso; linarith⟩
  · rename_i h
    rw [h2r] at h
    split
    · rename_i h'
      rw [h3r] at h'
      push_cast
      have e : |(q:ℚ) * P + y - (q+1) * P| = P - y := by rw [show (q:ℚ) * P + y - (q+1) * P = -(P-y) by ring, abs_neg]; exact abs_of_nonneg (by linarith)
      rw [e]
      rcases hgq with h1 | h1
      · rw [abs_of_nonneg (by linarith)]
        exact ⟨by linarith, fun he _ => by exfalso; linarith⟩
      · rw [abs_of_nonpos (by linarith)]
        refine ⟨by linarith, fun he hne => ?_⟩
        exfalso; apply hne
        have : (u : ℚ) = (q+1) * P := by linarith
        exact_mod_cast this
    · rename_i h'
      rw [h3r] at h'
      have hyP : 2 * y = P := by linarith
      have e : |(q:ℚ) * P + y - ((q + q % 2 : ℕ):ℚ) * P| = y := by
        rcases Nat.mod_two_eq_zero_or_one q with h0 | h0 <;> rw [h0]
        · push_cast; rw [show (q:ℚ) * P + y - (q + 0) * P = y by ring]; exact abs_of_nonneg hr0
        · push_cast; rw [show (q:ℚ) * P + y - (q + 1) * P = -y by linear_combination hyP, abs_neg]; exact abs_of_nonneg hr0
      push_cast at e ⊢
      rw [e]
      refine ⟨?_, fun _ _ => by omega⟩
      rcases hgq with h1 | h1
      · rw [abs_of_nonneg (by linarith)]; linarith
      · rw [abs_of_nonpos (by linarith)]; linarith


/-- A whole number of fewer than 24 bits times a power of two is a multiple of its own last place. -/
theorem lastPlace_dvd_small {q k : Nat} (h : q < 2 ^ 24) : 2 ^ lastPlace (q * 2 ^ k) 1 ∣ q * 2 ^ k := by
  by_cases h0 : q = 0
  · subst h0; simp
  · rw [lastPlace_one, log2_mul_pow h0]
    have := (Nat.log2_lt h0).2 h
    exact Dvd.dvd.mul_left (pow_dvd_pow _ (by omega)) _

/-- A representable number is its own rounding. -/
theorem roundUnits_of_representable {u : Nat} (h : representable u) : roundUnits u 1 = u := by
  have h1 := (roundUnits_near u 1 (by omega) h).1
  simp only [Nat.cast_one, div_one, sub_self, abs_zero, abs_nonpos_iff] at h1
  have : (u : ℚ) = roundUnits u 1 := by linarith
  exact_mod_cast this.symm

/-- A whole number below 2^24 is representable. -/
theorem representable_of_small {k : Nat} (h : k < 2 ^ 24) : representable (k * unitsPerOne) := by
  constructor
  · unfold overflowUnits; exact Nat.mul_lt_mul_of_pos_right (by omega) (by unfold unitsPerOne; positivity)
  · unfold unitsPerOne; exact lastPlace_dvd_small h

/-- A pattern whose significand is even is an even pattern. -/
theorem evenPattern_finBits (neg : Bool) {q p : Nat} (h1 : q ≤ 2 ^ 24) (h2 : 0 < p → 2 ^ 23 ≤ q) (he : q % 2 = 0) :
    evenPattern (finBits neg (q * 2 ^ p)) := by
  have hu : (q * 2 ^ p / 2 ^ lastPlace (q * 2 ^ p) 1) % 2 = 0 := by
    by_cases hs : q * 2 ^ p < 2 ^ 24
    · rw [lastPlace_small hs, pow_zero, Nat.div_one, Nat.mul_mod, he, Nat.zero_mul, Nat.zero_mod]
    · have hq0 : q ≠ 0 := by
        rintro rfl
        simp at hs
      rw [lastPlace_one, log2_mul_pow hq0]
      by_cases hq : q = 2 ^ 24
      · subst hq
        rw [Nat.log2_two_pow, show 24 + p - 23 = p + 1 by omega, ← pow_add, Nat.pow_div (by omega) (by omega),
          show 24 + p - (p + 1) = 23 by omega]
      · have hp : 0 < p := by
          rcases Nat.eq_zero_or_pos p with rfl | hp
          · rw [pow_zero, Nat.mul_one] at hs; omega
          · exact hp
        have hl : Nat.log2 q = 23 := by
          have a := (Nat.le_log2 hq0).2 (h2 hp)
          have b := (Nat.log2_lt hq0).2 (show q < 2 ^ 24 by omega)
          omega
        rw [hl, show 23 + p - 23 = p by omega, Nat.mul_div_cancel _ (by positivity), he]
  unfold evenPattern finBits
  rw [BitVec.getLsbD_append, if_pos (by omega), BitVec.getLsbD_ofNat, Nat.testBit_zero]
  simp only [show (0 : Nat) < 31 by omega, decide_true, Bool.true_and, decide_eq_false_iff_not]
  omega

/-- A quotient of 24 bits rounds up to 2^24 exactly from half a place below it on. -/
theorem rounds_up_at_top {W q r : Nat} (hW : 0 < W) (hr : r < 2 * W) (hq : q < 2 ^ 24) :
    2 ^ 24 ≤ (if 2 * r < 2 * W then q else if 2 * W < 2 * r then q + 1 else q + q % 2)
      ↔ (2 ^ 25 - 1) * W ≤ 2 * W * q + r := by
  have hqW : q = 2 ^ 24 - 1 ∨ 2 * W * q ≤ 2 * W * (2 ^ 24 - 2) := by
    by_cases hqq : q = 2 ^ 24 - 1
    · exact .inl hqq
    · exact .inr (Nat.mul_le_mul_left _ (by omega))
  rcases hqW with rfl | hqW
  · split
    · constructor <;> intro <;> omega
    · split <;> (constructor <;> intro <;> omega)
  · have hq2 : q ≤ 2 ^ 24 - 2 := Nat.le_of_mul_le_mul_left hqW (by omega)
    generalize 2 * W * q = A at *
    split
    · constructor <;> intro <;> omega
    · split <;> (constructor <;> intro <;> omega)

/-- A rounding overflows exactly from half a last place past the largest finite value on, in units of 2^252. -/
theorem overflow_iff_units (n d : Nat) (hd : 0 < d) :
    overflowUnits ≤ roundUnits n d ↔ (2 ^ 25 - 1) * (2 ^ 252 * d) ≤ n := by
  obtain ⟨hq, hq'⟩ := quotient_bounds n d
  obtain ⟨hr1, hr2⟩ := divNearestEven_bounds n (d * 2 ^ lastPlace n d)
  have hO : overflowUnits = 2 ^ 24 * (2 ^ 252 * 2) := by
    rw [overflowUnits_eq, show (2 : Nat) ^ 253 = 2 ^ 252 * 2 from pow_succ 2 252]
  rw [hO]
  unfold roundUnits
  have hK : 0 < 2 ^ 252 := by positivity
  have hmod := Nat.div_add_mod n (d * 2 ^ lastPlace n d)
  have hlt := Nat.mod_lt n (show 0 < d * 2 ^ lastPlace n d by positivity)
  generalize hp : lastPlace n d = p at *
  rcases Nat.lt_trichotomy p 253 with h | h | h
  · have hP : 2 ^ p ≤ 2 ^ 252 := Nat.pow_le_pow_right (by omega) (by omega)
    have hW : d * 2 ^ p ≤ 2 ^ 252 * d := by rw [Nat.mul_comm]; exact Nat.mul_le_mul_right _ hP
    have hWpos : 0 < 2 ^ 252 * d := by positivity
    have hle : divNearestEven n (d * 2 ^ p) * 2 ^ p ≤ 2 ^ 24 * 2 ^ 252 := Nat.mul_le_mul (by omega) hP
    generalize 2 ^ 252 * d = W at *
    generalize 2 ^ 252 = K at *
    have hn : n < 2 ^ 24 * W := by
      calc n < d * 2 ^ p * (n / (d * 2 ^ p)) + d * 2 ^ p := by omega
        _ = d * 2 ^ p * (n / (d * 2 ^ p) + 1) := by ring
        _ ≤ W * 2 ^ 24 := Nat.mul_le_mul hW (by omega)
        _ = 2 ^ 24 * W := Nat.mul_comm _ _
    constructor <;> intro <;> omega
  · subst h
    have hP : (2 : Nat) ^ 253 = 2 ^ 252 * 2 := pow_succ 2 252
    have hD : d * 2 ^ 253 = 2 * (2 ^ 252 * d) := by rw [hP]; ring
    have hround : 2 ^ 24 * (2 ^ 252 * 2) ≤ divNearestEven n (d * 2 ^ 253) * 2 ^ 253
        ↔ 2 ^ 24 ≤ divNearestEven n (d * 2 ^ 253) := by
      rw [hP]; exact Nat.mul_le_mul_right_iff (by positivity)
    rw [hround]
    have hWpos : 0 < 2 ^ 252 * d := by positivity
    rw [hD] at hq hlt hmod ⊢
    have htop := rounds_up_at_top hWpos hlt hq
    rw [hmod] at htop
    exact htop
  · have hP : 2 ^ 252 * 4 ≤ 2 ^ p := by
      rw [show (4 : Nat) = 2 ^ 2 from rfl, ← pow_add]; exact Nat.pow_le_pow_right (by omega) (by omega)
    have h23 := hq' (by omega)
    have h1 : 2 ^ 23 * (2 ^ 252 * 4) ≤ divNearestEven n (d * 2 ^ p) * 2 ^ p := Nat.mul_le_mul (by omega) hP
    have h2 : 2 ^ 252 * d * 4 * 2 ^ 23 ≤ d * 2 ^ p * (n / (d * 2 ^ p)) := by
      refine Nat.mul_le_mul ?_ h23
      calc 2 ^ 252 * d * 4 = d * (2 ^ 252 * 4) := by ring
        _ ≤ d * 2 ^ p := Nat.mul_le_mul_left _ hP
    clear hq hq' hr1 hr2 hlt h23 hO hp
    generalize 2 ^ 252 * d = W at *
    generalize d * 2 ^ p * (n / (d * 2 ^ p)) = A at *
    generalize divNearestEven n (d * 2 ^ p) * 2 ^ p = B at *
    clear hP
    generalize 2 ^ 252 = K at *
    constructor <;> intro <;> omega

/-- A rounding overflows exactly from half a last place past the largest finite value on. -/
theorem overflow_iff (n d : Nat) (hd : 0 < d) :
    overflowUnits ≤ roundUnits n d ↔ (2 : ℚ) ^ 128 - 2 ^ 103 ≤ (n : ℚ) / d / 2 ^ 149 := by
  have hdq : (0 : ℚ) < d := by exact_mod_cast hd
  rw [overflow_iff_units n d hd, div_div, le_div_iff₀ (by positivity)]
  constructor
  · intro h
    have : (((2 ^ 25 - 1) * (2 ^ 252 * d) : ℕ) : ℚ) ≤ n := by exact_mod_cast h
    push_cast at this
    linarith
  · intro h
    have : (((2 ^ 25 - 1) * (2 ^ 252 * d) : ℕ) : ℚ) ≤ n := by push_cast; linarith
    exact_mod_cast this

/-- The number of a rounding, where it does not overflow, as a pattern. -/
theorem valueOf_finBits (neg : Bool) {u : Nat} (h : representable u) :
    valueOf (finBits neg u) = some ((signedUnits neg u : ℚ) / 2 ^ 149) := by
  unfold valueOf; rw [ofBits_finBits neg h]; rfl

/-- The units of a finite pattern. -/
theorem units_of_valueOf {f : F32} {v : ℚ} (h : valueOf f = some v) :
    ∃ neg u, representable u ∧ FVal.ofBits f = .fin neg u ∧ v = (signedUnits neg u : ℚ) / 2 ^ 149 := by
  have hr := ofBits_isPattern f
  unfold valueOf at h
  cases hf : FVal.ofBits f with
  | nan => rw [hf] at h; cases h
  | inf a => rw [hf] at h; cases h
  | fin a u =>
    rw [hf] at h hr
    refine ⟨a, u, hr, rfl, ?_⟩
    cases h; rfl

theorem signedUnits_cast (neg : Bool) (u : Nat) : ((signedUnits neg u : Int) : ℚ) = if neg then -(u : ℚ) else u := by
  unfold signedUnits; cases neg <;> simp

/-- `ofExact` gives the pattern nearest to its exact number. -/
theorem ofExact_nearest (neg : Bool) (n d : Nat) (hd : 0 < d) (nan : F32) :
    nearestTo ((if neg then -1 else 1) * ((n : ℚ) / d / 2 ^ 149)) ((FVal.ofExact neg n d).toBits nan) := by
  have hdq : (0 : ℚ) < d := by exact_mod_cast hd
  have hov := overflow_iff n d hd
  unfold FVal.ofExact
  by_cases h : overflowUnits ≤ roundUnits n d
  · rw [if_pos h]
    rw [hov] at h
    cases neg
    · right; left; exact ⟨by simpa using h, rfl⟩
    · right; right; refine ⟨?_, rfl⟩
      simp only [if_true]
      linarith
  · rw [if_neg h]
    have hr : representable (roundUnits n d) := ⟨by omega, roundUnits_dvd n d⟩
    rw [hov, not_le] at h
    have hx0 : 0 ≤ (n : ℚ) / d / 2 ^ 149 := by positivity
    left
    refine ⟨_, valueOf_finBits neg hr, ?_, ?_⟩
    · cases neg
      · simpa [abs_of_nonneg hx0] using h
      · rw [if_pos rfl, neg_one_mul, abs_neg, abs_of_nonneg hx0]; exact h
    · intro f v hv
      obtain ⟨a, u, hu, -, rfl⟩ := units_of_valueOf hv
      have key := roundUnits_near n d hd hu
      have hR := (roundUnits_near n d hd (u := 0) (zero_isPattern false)).1
      have heven : divNearestEven n (d * 2 ^ lastPlace n d) % 2 = 0 →
          evenPattern ((FVal.fin neg (roundUnits n d)).toBits nan) := by
        obtain ⟨h1, h2⟩ := quotient_bounds n d
        obtain ⟨h3, h4⟩ := divNearestEven_bounds n (d * 2 ^ lastPlace n d)
        exact evenPattern_finBits neg (by omega) (fun hk => (h2 hk).trans h3)
      have hy0 : 0 ≤ (n : ℚ) / d := by positivity
      have hu0 : (0 : ℚ) ≤ u := by positivity
      have hr0 : (0 : ℚ) ≤ roundUnits n d := by positivity
      have hT : (0 : ℚ) < 2 ^ 149 := by positivity
      generalize (n : ℚ) / d = y at *
      generalize roundUnits n d = R at *
      rw [signedUnits_cast, signedUnits_cast]
      generalize (2 : ℚ) ^ 149 = T at *
      have near : ∀ w : ℚ, w = u ∨ w = -u → |y - R| ≤ |y - w|
          ∧ (|y - R| = |y - w| → w ≠ R → evenPattern ((FVal.fin neg R).toBits nan)) := by
        rintro w (rfl | rfl)
        · exact ⟨key.1, fun he hne => heven (key.2 he fun h0 => hne (by rw [h0]))⟩
        · have hle : |y - u| ≤ |y - -(u : ℚ)| := by
            rw [abs_of_nonneg (show 0 ≤ y - -(u : ℚ) by linarith), abs_le]; constructor <;> linarith
          refine ⟨key.1.trans hle, fun he hne => ?_⟩
          have hsq : |y - u| = |y - -(u : ℚ)| := le_antisymm hle (he ▸ key.1)
          have hyu : y = 0 ∨ (u : ℚ) = 0 := by
            rw [← sq_eq_sq₀ (abs_nonneg _) (abs_nonneg _), sq_abs, sq_abs] at hsq
            have : y * u = 0 := by linarith
            exact mul_eq_zero.1 this
          have hu00 : (u : ℚ) = 0 := by
            rcases hyu with rfl | h0
            · have hR0 : (R : ℚ) = 0 := by
                simp only [Nat.cast_zero, sub_zero, abs_zero, zero_sub, abs_neg, abs_of_nonneg hr0] at hR
                linarith
              rw [hR0] at he
              simpa using he.symm
            · exact h0
          exact heven (key.2 (by rw [he, hu00, neg_zero]) fun h0 => hne (by rw [← h0, hu00, neg_zero]))
      have cast : ∀ x z w : ℚ, x = z / T → |x - w / T| = |z - w| / T := by
        rintro x z w rfl
        rw [← sub_div, abs_div, abs_of_pos hT]
      have ne : ∀ z w : ℚ, z / T ≠ w / T → z ≠ w := fun z w h0 h1 => h0 (by rw [h1])
      cases neg
      · have hxy : (if false = true then (-1 : ℚ) else 1) * (y / T) = y / T := by simp
        rw [cast _ y _ hxy, cast _ y _ hxy]
        simp only [Bool.false_eq_true, if_false]
        obtain ⟨h1, h2⟩ := near (if a = true then -(u : ℚ) else u) (by cases a <;> simp)
        exact ⟨by gcongr, fun he hne => h2 ((div_left_inj' hT.ne').1 he) (ne _ _ hne)⟩
      · have hxy : (if true = true then (-1 : ℚ) else 1) * (y / T) = -y / T := by simp; ring
        rw [cast _ (-y) _ hxy, cast _ (-y) _ hxy]
        simp only [if_true]
        obtain ⟨h1, h2⟩ := near (-(if a = true then -(u : ℚ) else u)) (by cases a <;> simp)
        have e1 : |-y - -(R : ℚ)| = |y - R| := by rw [← abs_neg]; congr 1; ring
        have e2 : |-y - (if a = true then -(u : ℚ) else u)| = |y - -(if a = true then -(u : ℚ) else u)| := by
          rw [← abs_neg]; congr 1; ring
        rw [e1, e2]
        exact ⟨by gcongr, fun he hne => h2 ((div_left_inj' hT.ne').1 he) fun h0 => ne _ _ hne (by rw [← h0, neg_neg])⟩

end Sys2Proof.Machine
end

