-- ==== Sys2Proof/Tests/Slice0.lean ====
section
/-! SUPPORT. Tests on fixed values, taken from the spec's own encodings and test vectors (95_test_vectors.md), and one
witness for the hypotheses of every statement that has some. -/

namespace Sys2Proof.Tests

open Sys2Proof.Machine

/-! ## WellFormed: one ill-formed term for each check (00_scope.md R6, 30_encoding.md R53) -/

theorem test_reference_wf : Config.reference.wf = true := by decide
theorem test_spc_zero_refused : Config.sizesOk { Config.reference with spc := 0 } = false := by decide
theorem test_spc_above_512_refused : Config.sizesOk { Config.reference with spc := 513 } = false := by decide
theorem test_spc_512_accepted : Config.sizesOk { Config.reference with spc := 512 } = true := by decide
theorem test_tps_zero_refused : Config.sizesOk { Config.reference with tps := 0 } = false := by decide
theorem test_infinite_coefficient_refused_in_section_1 :
    Config.wf { Config.reference with lp1 := ⟨0x7F800000, 0, 0, 0, 0⟩ } = false := by decide
theorem test_nan_coefficient_refused_in_section_2 :
    Config.wf { Config.reference with lp2 := ⟨0, 0, 0, 0, 0x7FC00000⟩ } = false := by decide
theorem test_infinite_all_pass_coefficient_refused :
    Config.wf { Config.reference with fdC := 0xFF800000 } = false := by decide
theorem test_each_coefficient_is_checked :
    Coeffs.wf ⟨0x7F800000, 0, 0, 0, 0⟩ = false ∧ Coeffs.wf ⟨0, 0x7F800000, 0, 0, 0⟩ = false
    ∧ Coeffs.wf ⟨0, 0, 0x7F800000, 0, 0⟩ = false ∧ Coeffs.wf ⟨0, 0, 0, 0x7F800000, 0⟩ = false
    ∧ Coeffs.wf ⟨0, 0, 0, 0, 0x7F800000⟩ = false := by decide
theorem test_lp_row_6_refused : (Instr.lp 6).wf Config.reference = false := by decide
theorem test_lp_disabled_refused : (Instr.lp 0).wf { Config.reference with lpEn := false } = false := by decide
theorem test_fd_even_rows_refused :
    (Instr.fd 0).wf Config.reference = false ∧ (Instr.fd 2).wf Config.reference = false
    ∧ (Instr.fd 4).wf Config.reference = false ∧ (Instr.fd 7).wf Config.reference = false := by decide
theorem test_fd_disabled_refused : (Instr.fd 1).wf { Config.reference with fdEn := false } = false := by decide

/-! ## Decode: the words of R49 to R52, bit by bit, OP first -/

theorem test_word_nop : decode Config.reference (0b0000#4 ++ 0#28) = .ok .nop := by decide
theorem test_word_rec : decode Config.reference (0b0001#4 ++ 0#12 ++ 0b0011#4 ++ 0b000100100011#12) =
    .ok (.record 3 0x123) := by decide
theorem test_word_gapfill : decode Config.reference (0b0010#4 ++ 0#28) = .ok .gapfill := by decide
theorem test_word_fd : decode Config.reference (0b0011#4 ++ 0b0101#4 ++ 0#24) = .ok (.fd 5) := by decide
theorem test_word_lp : decode Config.reference (0b0100#4 ++ 0b0101#4 ++ 0#24) = .ok (.lp 5) := by decide
theorem test_word_filter : decode Config.reference (0b0101#4 ++ 0#28) = .ok .filter := by decide
theorem test_word_rate : decode Config.reference (0b0110#4 ++ 0#28) = .ok .rate := by decide
theorem test_word_publish : decode Config.reference (0b0111#4 ++ 0#28) = .ok .publish := by decide
theorem test_word_cycle : decode Config.reference (0b1000#4 ++ 0#28) = .ok .cycle := by decide
theorem test_word_fack : decode Config.reference (0b1001#4 ++ 0#28) = .ok .fack := by decide
theorem test_word_rack : decode Config.reference (0b1010#4 ++ 0#28) = .ok .rack := by decide
theorem test_word_start : decode Config.reference (0b1100#4 ++ 0#28) = .ok .start := by decide
theorem test_word_reset : decode Config.reference (0b1111#4 ++ 0#28) = .ok .reset := by decide

/-- 95 section 3.11, its table of illegal words with the condition of each. -/
theorem test_illegal_words :
    decode Config.reference 0xB0000000 = .error .opcode ∧ decode Config.reference 0xD0000000 = .error .opcode
    ∧ decode Config.reference 0xE1234567 = .error .opcode ∧ decode Config.reference 0x00800000 = .error .formatN
    ∧ decode Config.reference 0xF0000001 = .error .formatN ∧ decode Config.reference 0x8000FFFF = .error .formatN
    ∧ decode Config.reference 0x41000001 = .error .formatC ∧ decode Config.reference 0x10010000 = .error .formatR
    ∧ decode Config.reference 0x1F000000 = .error .formatR ∧ decode Config.reference 0x46000000 = .error .lpOperand
    ∧ decode Config.reference 0x4F000000 = .error .lpOperand ∧ decode Config.reference 0x32000000 = .error .fdOperand
    ∧ decode Config.reference 0x34000000 = .error .fdOperand ∧ decode Config.reference 0x37000000 = .error .fdOperand := by
  decide

/-- 95 section 3.11, with FD_EN = 0. -/
theorem test_fd_disabled_is_illegal_and_filter_is_not :
    decode { Config.reference with fdEn := false } 0x31000000 = .error .fdOperand
    ∧ decode { Config.reference with fdEn := false } 0x50000000 = .ok .filter := by decide

/-- Log 16, the model's choice: a line that holds no command gives no word. -/
theorem test_assembler_empty_lines : assemble [] = none ∧ assemble [' ', ';', ' ', 'x'] = none := by decide

/-- R56: an assembler rejects nothing that is checked at execution. -/
theorem test_assembler_leaves_fd_rows :
    assemble ['F', 'D', ' ', '0', ' ', ';', ' ', 'x'] = some 0x30000000#32 := by decide

/-! ## One step on a small state -/

/-- The state after one step. -/
def advance (s : State) : State :=
  match step s with
  | .next t => t
  | _ => s

/-- The state after one step on this word at the command port. -/
def after (s : State) (w : Word) : State := advance (s.offer w)

/-- The start state with this row 0 and fill index. -/
def row0 (row : List Sample) (fill : FillIndex) : State :=
  State.reset.setChan 0 { Channel.zero 4 with row := row, fill := fill }

/-- The start state with this row 1. -/
def row1 (row : List Sample) : State := State.reset.setChan 1 { Channel.zero 4 with row := row }

/-- The start state of a build with other parameters and this row 0. -/
def build (cfg : Config) (row : List Sample) (fill : FillIndex) : State :=
  (State.resetWith cfg).setChan 0 { Channel.zero cfg.spc with row := row, fill := fill }

/-- A state with every flag set and a rate. -/
def busy : State :=
  { row0 [12, 53, 100, 124] 4 with
    rate := 0x42480000, rateValid := true, rateSeeded := true, prevTs := 1000, now := 500, framePending := true,
    ready := true, errIll := true, everIll := true }

/-- V-CT-1. -/
theorem test_nop : after busy 0x00000000 = { busy with draws := 1 } := by decide
/-- V-REC-1. -/
theorem test_rec_appends : (after State.reset 0x10003005).chan 1 = { Channel.zero 4 with row := [5, 0, 0, 0], fill := 1 } := by
  decide
/-- V-REC-3. -/
theorem test_rec_full_row_drops : (after (row0 [1, 2, 3, 4] 4) 0x10000005).chan 0 = (row0 [1, 2, 3, 4] 4).chan 0 := by decide
/-- V-GF-5, with SPC = 3. -/
theorem test_gapfill_pads_then_fixes :
    ((after (build { Config.reference with spc := 3 } [0, 7, 0] 2) 0x20000000).chan 0).row = [7, 7, 7] := by decide
/-- V-GF-9. -/
theorem test_gapfill_without_record : ((after (row0 [0, 7, 7, 0] 0) 0x20000000).chan 0).row = [7, 7, 7, 7] := by decide
/-- V-FD-1. -/
theorem test_fd : (after (row1 [100, 0, 0, 0]) 0x31000000).chan 1 =
    { Channel.zero 4 with row := [50, 75, BitVec.ofInt 16 (-37), 18], fd := ⟨0x00000000, 0x41960000⟩ } := by decide
/-- V-FD-3. -/
theorem test_fd_even_row_is_illegal : after (row1 [100, 0, 0, 0]) 0x32000000 =
    { row1 [100, 0, 0, 0] with errIll := true, everIll := true, draws := 1 } := by decide
/-- V-LP-1. -/
theorem test_lp : (after (row0 [100, 100, 100, 100] 4) 0x40000000).chan 0 =
    { row := [12, 53, 100, 124], fill := 4, fd := AllPass.zero,
      lp := ⟨⟨0x42C80000, 0x42C80000, 0x431F6000, 0x430CA000⟩, ⟨0x431F6000, 0x430CA000, 0x42F99C00, 0x42C99000⟩⟩ } := by
  decide
/-- V-SRC-1, with negative gain. -/
theorem test_lp_clamps :
    ((after (build { Config.reference with lp1 := ⟨0xC1A00000, 0, 0, 0, 0⟩, lp2 := ⟨0x3F800000, 0, 0, 0, 0⟩ }
      [2000, 1638, 1639, 0] 4) 0x40000000).chan 0).row =
      [BitVec.ofInt 16 (-32768), BitVec.ofInt 16 (-32760), BitVec.ofInt 16 (-32768), 0] := by decide
/-- V-FI-1. -/
theorem test_filter_odd_row : ((after (row1 [100, 0, 0, 0]) 0x50000000).chan 1).row = [6, 29, 49, 34] := by decide
/-- V-FI-4. -/
theorem test_filter_disabled :
    ((after (build { Config.reference with fdEn := false, lpEn := false } [100, 0, 0, 0] 1) 0x50000000).chan 0).row =
      [100, 0, 0, 0] := by decide
/-- 95 section 3.8, TPS = 1000000, d = 3. -/
theorem test_rate : (after { State.reset with rateSeeded := true, now := 3 } 0x60000000).rate = 0x48A2C2AB := by decide
/-- 95 section 3.8, the wrapped difference: NOW from 2^63 - 10 to -2^63 + 10. -/
theorem test_rate_wraps :
    (after { State.reset with rateSeeded := true, prevTs := 0x7FFFFFFFFFFFFFF6, now := 0x800000000000000A } 0x60000000).rate =
      0x47435000 := by decide
/-- V-PU-1: STATUS and the fill index. -/
theorem test_publish :
    rdWord (after (row0 [10, 20, 20, 20] 2) 0x70000000) 0x000 = 0x00000002
    ∧ rdWord (after (row0 [10, 20, 20, 20] 2) 0x70000000) 0x008 = 0 := by decide
/-- V-CY-1: row 2 is padded, edge-fixed and filtered. -/
theorem test_cycle :
    ((after { State.reset.setChan 2 { Channel.zero 4 with row := [0, 9, 0, 0], fill := 2 } with now := 500 } 0x80000000).chan 2).row =
      [1, 4, 9, 11] := by decide
/-- V-CY-1: STATUS, at NOW = 500. -/
theorem test_cycle_status : rdWord (after { State.reset with now := 500 } 0x80000000) 0x000 = 0x0000000A := by decide
/-- V-CT-4. -/
theorem test_fack : after { State.reset with framePending := true } 0x90000000 = { State.reset with draws := 1 } := by decide
/-- V-CT-5. -/
theorem test_rack : after { State.reset with ready := true } 0xA0000000 = { State.reset with draws := 1 } := by decide
/-- V-CT-6 and V-CT-8. -/
theorem test_start : rdWord (after busy 0xC0000000) 0x000 = 0x10
    ∧ ((after busy 0xC0000000).chan 0).row = [12, 53, 100, 124] := by decide
/-- V-CT-7. -/
theorem test_reset : after busy 0xF0000000 = { State.reset with now := 500, draws := 1, everIll := true } := by decide
/-- V-CT-3: the second pulse is absorbed. -/
theorem test_second_pulse : advance { State.reset with events := [.frameReady], framePending := true } =
    { State.reset with framePending := true } := by decide
/-- V-LP-4: an infinite coefficient times zero gives the free NaN. -/
theorem test_nan_output (site : NanSite) :
    (biquadStep (freeNan 0 site) ⟨0x7F800000, 0, 0, 0, 0⟩ Biquad.zero 0).2 = freeNan 0 site := by
  have h : FVal.ofBits 0x7F800000#32 = .inf false ∧ FVal.ofBits 0#32 = .fin false 0 := by decide
  simp [biquadStep, h.1, h.2, Biquad.zero, fmul, fadd, fsub, FVal.toBits]

/-- 95 section 3.1, both tables. -/
theorem test_conversions :
    i16ToF32 0 = 0x00000000 ∧ i16ToF32 1 = 0x3F800000 ∧ i16ToF32 (BitVec.ofInt 16 (-1)) = 0xBF800000
    ∧ i16ToF32 4095 = 0x457FF000 ∧ i16ToF32 32767 = 0x46FFFE00 ∧ i16ToF32 (BitVec.ofInt 16 (-32768)) = 0xC7000000
    ∧ f32ToI16 0x471C4000 = 32767 ∧ f32ToI16 0xC71C4000 = BitVec.ofInt 16 (-32768)
    ∧ f32ToI16 0x42F99C00 = 124 ∧ f32ToI16 0xBF000000 = 0 ∧ f32ToI16 0x80000000 = 0 ∧ f32ToI16 0x7FC00000 = 0 := by
  decide

/-- 95 section 3.12: the sign-extended sample word, and the words around the sample region. -/
theorem test_read_port :
    rdWord (row0 [BitVec.ofInt 16 (-2000), 0, 0, 0] 1) 0x400 = 0xFFFFF830 ∧ rdWord busy 0x418 = 0
    ∧ rdWord busy 0x001 = 0x00040036 ∧ rdWord busy 0x003 = 0x00765430 ∧ rdWord busy 0xFFF = 0 := by decide

/-! ## Witnesses: concrete values that meet the hypotheses of each statement, clause by clause -/

/-- OpcodeMapSelectsByMaskAndMatch: words of the three illegal OPs. -/
theorem test_witness_illegal_ops : 0xB0000000#32 &&& 0xF0000000#32 = 0xB0000000#32
    ∧ 0xDFFFFFFF#32 &&& 0xF0000000#32 = 0xD0000000#32 ∧ 0xE1234567#32 &&& 0xF0000000#32 = 0xE0000000#32 := by decide

/-- EncodedCommandsDecodeBack: legal commands at the ends of their operand ranges. -/
theorem test_witness_legal_commands : (Instr.record 15 4095).wf Config.reference = true
    ∧ (Instr.lp 0).wf Config.reference = true ∧ (Instr.lp 5).wf Config.reference = true
    ∧ (Instr.fd 1).wf Config.reference = true ∧ (Instr.fd 5).wf Config.reference = true
    ∧ Instr.reset.wf Config.reference = true := by decide

/-- DecodedWordsAreEncodings. -/
theorem test_witness_decoded_word : decode Config.reference 0x45000000 = .ok (.lp 5) := by decide

/-- IllegalWordsAreTheSixConditions, ErrIllIsSticky: a word for each condition, and a state that takes one. -/
theorem test_witness_illegal_words :
    illegalWord Config.reference 0xB0000000 ∧ illegalWord Config.reference 0x00000001
    ∧ illegalWord Config.reference 0x41000001 ∧ illegalWord Config.reference 0x10010000
    ∧ illegalWord Config.reference 0x46000000 ∧ illegalWord Config.reference 0x30000000
    ∧ illegalWord { Config.reference with lpEn := false } 0x40000000
    ∧ illegalWord { Config.reference with fdEn := false } 0x31000000
    ∧ ¬illegalWord Config.reference 0x45000000 ∧ ¬illegalWord Config.reference 0x1000FFFF
    ∧ (State.reset.offer 0xB0000000).events = .command 0xB0000000 :: [] := by
  refine ⟨?_, ?_, ?_, ?_, ?_, ?_, ?_, ?_, ?_, ?_, rfl⟩ <;> decide

/-- StepRunsTheDecodedCommand, IllegalCommandSetsErrIllAlone. -/
theorem test_witness_step : (busy.offer 0x10003005).events = .command 0x10003005 :: []
    ∧ decode busy.cfg 0x10003005 = .ok (.record 3 5) ∧ decode busy.cfg 0x46000000 = .error .lpOperand
    ∧ busy.everIll = true := by decide

/-- IllegalCommandSetsErrIllAlone (second part), StepKeepsParametersAndRecord: a step that answers a next state. -/
theorem test_witness_step_next : step (busy.offer 0xC0000000) = .next (after busy 0xC0000000) ∧ busy.recordOk :=
  ⟨rfl, by decide⟩

/-- CleanEndMeansCleanRun: a clean run of one step, and the state it steps on from, whose input is a legal word. -/
theorem test_witness_clean_run :
    Host.Core.run Sys2Proof.core 1 (State.reset.offer 0x00000000) = .next { State.reset with draws := 1 }
    ∧ State.clean { State.reset with draws := 1 } ∧ 0 < 1
    ∧ Host.Core.run Sys2Proof.core 0 (State.reset.offer 0x00000000) = .next (State.reset.offer 0x00000000)
    ∧ (State.reset.offer 0x00000000).events = .command 0x00000000 :: [] :=
  ⟨rfl, rfl, by decide, rfl, rfl⟩

/-- InputsThatAreNoCommands, StepsStopOnlyOnPartialWrites, FramePendingCoalesces: a state for each input. -/
theorem test_witness_inputs : State.reset.events = []
    ∧ State.events { busy with events := [.timestamp 7] } = .timestamp 7 :: []
    ∧ State.events { busy with events := [.powerOn] } = .powerOn :: []
    ∧ State.events { busy with events := [.partialWrite 16 1] } = .partialWrite 16 1 :: []
    ∧ State.events { busy with events := [.frameReady] } = .frameReady :: [] := by decide

/-- The words of format N and R that the statements on single commands speak of, legal and not. -/
theorem test_witness_formats :
    (∀ op ∈ [0x0#4, 0x2#4, 0x5#4, 0x6#4, 0x7#4, 0x8#4, 0x9#4, 0xA#4, 0xC#4, 0xF#4],
      (op ++ 0#28).extractLsb' 28 4 = op ∧ (op ++ 0#28).extractLsb' 0 28 = 0#28
      ∧ (op ++ 1#28).extractLsb' 28 4 = op ∧ (op ++ 1#28).extractLsb' 0 28 ≠ 0#28)
    ∧ (0x10003005#32).extractLsb' 28 4 = 0x1#4 ∧ (0x10003005#32).extractLsb' 16 12 = 0#12
    ∧ (0x10010000#32).extractLsb' 28 4 = 0x1#4 ∧ (0x10010000#32).extractLsb' 16 12 ≠ 0#12 := by decide

/-- ReadsAfterResetAreZero: addresses beside the two that keep their word. -/
theorem test_witness_reset_addresses : (0x000#12 ≠ 0x001#12 ∧ 0x000#12 ≠ 0x003#12)
    ∧ (0x002#12 ≠ 0x001#12 ∧ 0x002#12 ≠ 0x003#12) ∧ (0xFFF#12 ≠ 0x001#12 ∧ 0xFFF#12 ≠ 0x003#12) := by decide

/-- FramePendingCoalesces, ReadyCoalesces: a command of each kind. -/
theorem test_witness_flag_commands : Instr.start ∈ [Instr.fack, .start, .reset]
    ∧ Instr.cycle ∉ [Instr.fack, .start, .reset] ∧ Instr.cycle ∈ [Instr.publish, .cycle]
    ∧ Instr.rack ∈ [Instr.rack, .start, .reset] ∧ Instr.fack ∉ [Instr.publish, .cycle, .rack, .start, .reset] := by decide

/-- ErrIllIsSticky: steps that clear the bit. -/
theorem test_witness_clears_err : step (busy.offer 0xF0000000) = .next (after busy 0xF0000000) ∧ busy.errIll = true
    ∧ (after busy 0xF0000000).errIll = false
    ∧ (advance { busy with events := [.powerOn] }).errIll = false :=
  ⟨rfl, rfl, rfl, rfl⟩

/-- RecAppendsOrDrops: no row, the first of two rows, a row with one place left, a full row. -/
theorem test_witness_rec : busy.wf ∧ (∀ k, busy.cfg.pattern.get k ≠ 9)
    ∧ PerChannel.get ⟨2, 2, 4, 5, 6, 7⟩ 0 = (2 : ChannelId) ∧ (∀ j : Chan, j < 0 → PerChannel.get ⟨2, 2, 4, 5, 6, 7⟩ j ≠ (2 : ChannelId))
    ∧ busy.cfg.pattern.get 5 = 7 ∧ (∀ j : Chan, j < 5 → busy.cfg.pattern.get j ≠ 7)
    ∧ ((row0 [1, 2, 3, 0] 3).wf ∧ ((row0 [1, 2, 3, 0] 3).chan 0).fill.toNat < 4)
    ∧ ((row0 [1, 2, 3, 4] 4).wf ∧ 4 ≤ ((row0 [1, 2, 3, 4] 4).chan 0).fill.toNat) := by decide

/-- GapfillPadsThenFixesEdges, GapfilledRowsHoldRecordedValues: SPC of 1 and 2, a short row, one record. -/
theorem test_witness_gapfill : (build { Config.reference with spc := 1 } [0] 1).wf
    ∧ (build { Config.reference with spc := 2 } [0, 0] 1).wf ∧ (row0 [10, 0, 0, 0] 1).wf
    ∧ 1 ≤ ((row0 [10, 0, 0, 0] 1).chan 0).fill.toNat := by decide

/-- RateMeasuresTheInterval: not seeded; intervals of 0, -1, 1 and the most negative one. -/
theorem test_witness_rate : State.reset.rateSeeded = false
    ∧ (busy.rateSeeded = true ∧ (busy.now - busy.prevTs).toInt ≤ 0)
    ∧ (5 - 5 : Timestamp).toInt ≤ 0 ∧ (0x8000000000000000#64 - 0).toInt ≤ 0 ∧ 0 < (6 - 5 : Timestamp).toInt
    ∧ 0 < (0x800000000000000A#64 - 0x7FFFFFFFFFFFFFF6#64).toInt := by decide

/-- UnsetRateStaysZero. -/
theorem test_witness_rateOk : State.reset.rateOk ∧ busy.rateOk
    ∧ step (busy.offer 0x60000000) = .next (after busy 0x60000000) :=
  ⟨by decide, by decide, rfl⟩

/-- The rational of a pattern whose units are known. -/
theorem value_of_units {f : F32} {neg : Bool} {u : Nat} {q : ℚ} (h : FVal.ofBits f = .fin neg u)
    (hq : ((signedUnits neg u : Int) : ℚ) / 2 ^ 149 = q) : valueOf f = some q := by
  unfold valueOf; rw [h, ← hq]; rfl

/-- ArithmeticIsCorrectlyRounded: 1.0 and the smallest subnormal are finite, and a denominator is positive. -/
theorem test_witness_finite_values : valueOf 0x3F800000 = some 1 ∧ valueOf 0x00000001 = some (1 / 2 ^ 149) ∧ 0 < 3 :=
  ⟨value_of_units (u := 2 ^ 149) (neg := false) (by decide) (by norm_num [signedUnits]),
    value_of_units (u := 1) (neg := false) (by decide) (by norm_num [signedUnits]), by decide⟩

/-- R10 with R89: differences of infinities and of zeros. -/
theorem test_differences : fsub (.fin false 1) (.inf false) = .inf true ∧ fsub (.inf true) (.fin true 5) = .inf true
    ∧ fsub (.fin true 0) (.fin false 0) = .fin true 0 ∧ fsub (.fin true 0) (.fin true 0) = .fin false 0 := by decide

/-- ArithmeticIsCorrectlyRounded: a positive number of units. -/
theorem test_witness_units : 0 < 1 := by decide

/-- FloatToSampleClampsThenTruncates: a NaN, both limits, and a value past each. -/
theorem test_witness_float_to_sample : isNanPattern 0x7FC00000 ∧ valueOf 0x46FFFE00 = some 32767
    ∧ valueOf 0xC7000000 = some (-32768) ∧ valueOf 0x47000000 = some 32768 ∧ valueOf 0xC7000100 = some (-32769) :=
  ⟨by decide, value_of_units (u := 32767 * 2 ^ 149) (neg := false) (by decide) (by norm_num [signedUnits]),
    value_of_units (u := 32768 * 2 ^ 149) (neg := true) (by decide) (by norm_num [signedUnits]),
    value_of_units (u := 32768 * 2 ^ 149) (neg := false) (by decide) (by norm_num [signedUnits]),
    value_of_units (u := 32769 * 2 ^ 149) (neg := true) (by decide) (by norm_num [signedUnits])⟩

/-- PassesRunTheirStepOverTheRow, FilterRunsTheEnabledPasses: both filters enabled, and each disabled. -/
theorem test_witness_passes : busy.wf ∧ busy.cfg.lpEn = true ∧ busy.cfg.fdEn = true
    ∧ ((5 : Chan) = 1 ∨ (5 : Chan) = 3 ∨ (5 : Chan) = 5)
    ∧ ¬(busy.cfg.fdEn = true ∧ ((0 : Chan) = 1 ∨ (0 : Chan) = 3 ∨ (0 : Chan) = 5))
    ∧ Config.lpEn { Config.reference with fdEn := false, lpEn := false } = false
    ∧ Config.fdEn { Config.reference with fdEn := false, lpEn := false } = false := by decide

/-- IllegalOperandsRaiseIllegalCommand: the rows next to the legal ones, and a disabled filter. -/
theorem test_witness_illegal_operands : 5 < (6#4).toNat ∧ (0#4).toNat ∉ [1, 3, 5] ∧ (6#4).toNat ∉ [1, 3, 5]
    ∧ (build { Config.reference with lpEn := false } [0, 0, 0, 0] 0).cfg.lpEn = false
    ∧ (build { Config.reference with fdEn := false } [0, 0, 0, 0] 0).cfg.fdEn = false := by decide

/-- The parameters of 95 with the signs that make a zero negative: b0, b1, b2 below zero and a1, a2 above. -/
def signs : Config :=
  { Config.reference with lp1 := ⟨0xBF800000, 0xBF800000, 0xBF800000, 0x3F800000, 0x3F800000⟩ }

/-- ZeroRowFromZeroStateStaysZero, ZeroRowKeepsPositiveZeroState. -/
theorem test_witness_zero_row : State.reset.cfg.wf = true
    ∧ (State.reset.chan 1).row = List.replicate State.reset.cfg.spc 0 ∧ (State.reset.chan 1).lp.isZero
    ∧ (State.reset.chan 1).lp = Cascade.zero ∧ isZero (State.reset.chan 1).fd.x1 ∧ isZero (State.reset.chan 1).fd.y1
    ∧ State.reset.cfg.lpEn = true ∧ State.reset.cfg.fdEn = true ∧ signs.wf = true
    ∧ (build signs [0, 0, 0, 0] 0).chan 0 = Channel.zero signs.spc := by decide

/-- ZeroRowKeepsPositiveZeroState: the step its last hypothesis asks for. -/
theorem test_witness_zero_row_step : exec (.lp (BitVec.ofNat 4 0)) State.reset =
    .next (State.reset.setChan 0 ((State.reset.chan 0).lpPass State.reset.cfg State.reset.draws 0)) := rfl

/-- StepKeepsStateWellFormed: a state that no run from reset reaches in one step, and its next state. -/
theorem test_witness_wf : busy.wf ∧ step (busy.offer 0x10000064) = .next (after busy 0x10000064) := ⟨by decide, rfl⟩

/-- ResetStateIsWellFormed: the bounds of R6. -/
theorem test_witness_sizes : Config.sizesOk { Config.reference with spc := 1, tps := 1 } = true
    ∧ Config.sizesOk { Config.reference with spc := 512 } = true := by decide

/-- EachStateHasItsWriters: a command outside every list, and RESET outside the last. -/
theorem test_witness_writers : (∀ rid rval, Instr.nop ≠ .record rid rval) ∧ (∀ ch, Instr.nop ≠ .fd ch)
    ∧ (∀ ch, Instr.nop ≠ .lp ch) ∧ Instr.nop ∉ [Instr.gapfill, .filter, .cycle, .reset]
    ∧ Instr.nop ∉ [Instr.publish, .cycle, .start, .reset] ∧ Instr.nop ∉ [Instr.rate, .cycle, .start, .reset]
    ∧ Instr.nop.wf Config.reference = true ∧ Instr.nop ≠ .reset := by
  refine ⟨?_, ?_, ?_, ?_, ?_, ?_, ?_, ?_⟩ <;> simp [Instr.wf]

/-- RowsDoNotInfluenceEachOther: two states that agree on row 0 and differ on row 1. -/
theorem test_witness_rows : Instr.filter ∈ [Instr.gapfill, .filter] ∧ State.reset.cfg = (row1 [1, 2, 3, 4]).cfg
    ∧ State.reset.draws = (row1 [1, 2, 3, 4]).draws ∧ State.reset.chan 0 = (row1 [1, 2, 3, 4]).chan 0
    ∧ State.reset.chan 1 ≠ (row1 [1, 2, 3, 4]).chan 1 := by decide

/-- ConfigAndPatternWords, SampleWordsAreRowMajor: the last sample of the largest build is the last word. -/
theorem test_witness_samples : Config.sizesOk { Config.reference with spc := 512 } = true ∧ 511 < 512
    ∧ BitVec.ofNat 12 (0x400 + 5 * 512 + 511) = 0xFFF#12 := by decide

/-- ReservedWordsReadZero: both ends of each range, at SPC = 4; none past the samples at SPC = 512. -/
theorem test_witness_reserved : State.reset.cfg.sizesOk = true
    ∧ (∀ a ∈ [0x006#12, 0x007#12, 0x00E#12, 0x03F#12, 0x070#12, 0x07F#12, 0x08C#12, 0x3FF#12, 0x418#12, 0xFFF#12],
        reservedAddr 4 a)
    ∧ (∀ a ∈ [0x005#12, 0x008#12, 0x00D#12, 0x040#12, 0x06F#12, 0x080#12, 0x08B#12, 0x400#12, 0x417#12], ¬reservedAddr 4 a)
    ∧ ¬reservedAddr 512 0xFFF := by
  refine ⟨by decide, ?_, ?_, ?_⟩ <;> simp [reservedAddr]

/-- WritesComposeToTheCommand, OverlappingReadsAdmitOldAndWrittenValues: LP writes nine words at each of four samples. -/
theorem test_witness_writes : (row0 [100, 100, 100, 100] 4).wf
    ∧ commandOrder (.lp 0) (row0 [100, 100, 100, 100] 4) (commandWrites (.lp 0) (row0 [100, 100, 100, 100] 4))
    ∧ (commandWrites (.lp 0) (row0 [100, 100, 100, 100] 4)).length = 36 :=
  ⟨by decide, rfl, rfl⟩

/-- An order of RESET's writes that clears ERR_ILL first. -/
def errFirst (s : State) : List Write := .clearErr :: (resetWrites s).erase .clearErr

theorem errFirst_order (s : State) : commandOrder .reset s (errFirst s) :=
  (List.perm_cons_erase (by simp [resetWrites])).symm

/-- R41: a read of STATUS that overlaps RESET may show 0x1F turn into 0x0F before any other flag is cleared. -/
theorem test_status_during_reset : overlapReadsAdmit .reset busy 0x000 [0x1F, 0x0F, 0x00] :=
  ⟨errFirst busy, errFirst_order busy, by decide⟩

/-- StatusDuringResetMayLoseAnyFlags: words whose bits were set, and one with a bit that was not. -/
theorem test_witness_status : (0x0A#32 &&& rdWord busy 0x000 = 0x0A#32) ∧ ¬(0x20#32 &&& rdWord busy 0x000 = 0x20#32) := by
  decide

/-- StepWritesComposeToTheStep: an order of a power-on reset's writes. -/
theorem test_witness_power_on : stepOrder { busy with events := [.powerOn] } (errFirst busy) :=
  errFirst_order busy

/-- ReadyFollowsTheSamples: PUBLISH passes through a state that shows READY. -/
theorem test_witness_ready : State.reset.ready = false
    ∧ commandOrder .publish State.reset (commandWrites .publish State.reset)
    ∧ { State.reset with ready := true } ∈ stagesFrom (commandWrites .publish State.reset) State.reset :=
  ⟨rfl, rfl, .tail _ (.head _)⟩

/-- ReadsOfOneWordAreCoherent: the values of one word in order, and out of order. -/
theorem test_witness_coherent : coherentFrom [100, 50, 12] [100, 100, 12] = true ∧ coherentFrom [100, 50, 12] [12, 100] = false := by
  decide

/-- StepWritesComposeToTheStep, RunHistoriesBeginAndEndInTheState: a run of one step that writes, and reads during it. -/
theorem test_witness_run : busy.wf ∧ Host.Core.run Sys2Proof.core 1 (busy.offer 0x90000000) = .next (after busy 0x90000000)
    ∧ stepOrder (busy.offer 0x90000000) [.framePending false]
    ∧ runHistory 1 (busy.offer 0x90000000) 0x000 [0x1F, 0x1E, 0x1E]
    ∧ runReadsAdmit 1 (busy.offer 0x90000000) 0x000 [0x1F, 0x1F, 0x1E] :=
  have h : runHistory 1 (busy.offer 0x90000000) 0x000 [0x1F, 0x1E, 0x1E] :=
    ⟨[.framePending false], [0x1E], rfl, rfl, rfl⟩
  ⟨by decide, rfl, rfl, h, _, h, by decide⟩

end Sys2Proof.Tests
end

section
/-! PROOF. The step runs the decoded command (30_encoding.md R54), and what every step keeps: the build parameters
(00_scope.md R6) and the record of R88. -/

namespace Sys2Proof.Machine

/-- Settles O7: the step on a command word, where the word decodes. -/
theorem stepRunsTheDecodedCommand : Obligations.StepRunsTheDecodedCommand := by
  intro s w rest i hev hdec
  rw [step_command hev, hdec]
  rfl

/-- The parameters are those of `s`, and ERR_ILL agrees with the record of R88 where it did in `s`. -/
def keepsParametersAndRecord (s t : State) : Prop := t.cfg = s.cfg ∧ (s.recordOk → t.recordOk)

/-- What keeps the parameters, ERR_ILL and the record keeps the agreement. -/
theorem keepsParametersAndRecord_of_sameErr {s t : State} (hc : t.cfg = s.cfg) (h : s.sameErr t) :
    keepsParametersAndRecord s t :=
  ⟨hc, fun hs he => h.2.trans (hs (h.1.symm.trans he))⟩

/-- An illegal command sets both bits. -/
theorem keepsParametersAndRecord_illegalCommand (s : State) : keepsParametersAndRecord s s.illegalCommand :=
  ⟨rfl, fun _ _ => rfl⟩

/-- RESET clears ERR_ILL. -/
theorem keepsParametersAndRecord_resetBlock (s : State) : keepsParametersAndRecord s s.resetBlock :=
  ⟨rfl, fun _ he => nomatch he⟩

theorem exec_keepsParametersAndRecord {i : Instr} {s t : State} (h : exec i s = .next t) :
    keepsParametersAndRecord s t := by
  cases i with
  | reset => cases h; exact keepsParametersAndRecord_resetBlock s
  | lp ch =>
    obtain ⟨k, -, he⟩ | ⟨-, he⟩ := exec_lp ch s <;> cases he.symm.trans h
    · exact keepsParametersAndRecord_of_sameErr rfl ⟨rfl, rfl⟩
    · exact keepsParametersAndRecord_illegalCommand s
  | fd ch =>
    obtain ⟨k, -, he⟩ | ⟨-, he⟩ := exec_fd ch s <;> cases he.symm.trans h
    · exact keepsParametersAndRecord_of_sameErr rfl ⟨rfl, rfl⟩
    · exact keepsParametersAndRecord_illegalCommand s
  | nop | record | gapfill | filter | rate | publish | cycle | fack | rack | start =>
    cases h
    exact keepsParametersAndRecord_of_sameErr (by simp) ⟨by simp, by simp⟩

/-- Settles O43: only an illegal command sets ERR_ILL, and it sets the record beside it. -/
theorem stepKeepsParametersAndRecord : Obligations.StepKeepsParametersAndRecord := by
  intro s t h
  obtain ⟨-, rfl⟩ | ⟨_, -, rfl⟩ | ⟨_, _, -, rfl⟩ | ⟨_, -, rfl⟩ | ⟨_, _, _, -, -, rfl⟩ | ⟨_, rest, _, -, -, he⟩ :=
    step_cases h
  -- idle, FRAME_READY, NOW, power-on, an illegal word, a command
  · exact ⟨rfl, id⟩
  · exact keepsParametersAndRecord_of_sameErr rfl ⟨rfl, rfl⟩
  · exact keepsParametersAndRecord_of_sameErr rfl ⟨rfl, rfl⟩
  · exact keepsParametersAndRecord_resetBlock _
  · exact keepsParametersAndRecord_illegalCommand _
  · exact exec_keepsParametersAndRecord (s := s.accept rest) he

end Sys2Proof.Machine
end

section
/-! PROOF. Binary32 arithmetic is correctly rounded (00_scope.md R10), and its default results (60_exceptions.md R89). -/

namespace Sys2Proof.Machine

/-! Finite operands: each operation's result is the pattern nearest to the exact result. -/

/-- A number with a rational value is finite. -/
theorem fin_of_value {v : FVal} {q : ℚ} (h : v.value = some q) :
    ∃ neg u, v = .fin neg u ∧ q = (signedUnits neg u : ℚ) / 2 ^ 149 := by
  cases v with
  | nan => cases h
  | inf a => cases h
  | fin neg u => cases h; exact ⟨neg, u, rfl, rfl⟩

theorem signedUnits_not (neg : Bool) (u : Nat) : signedUnits (!neg) u = -signedUnits neg u := by
  cases neg <;> simp [signedUnits]

/-- Turning the sign of a number negates its rational. -/
theorem value_fneg {v : FVal} {q : ℚ} (h : v.value = some q) : (fneg v).value = some (-q) := by
  obtain ⟨neg, u, rfl, rfl⟩ := fin_of_value h
  simp only [fneg, FVal.value, signedUnits_not, Int.cast_neg, neg_div]

/-- A zero of either sign is the pattern nearest to 0. -/
theorem nearestTo_zero (neg : Bool) : nearestTo 0 (finBits neg 0) := by
  have hv : valueOf (finBits neg 0) = some 0 := by
    rw [valueOf_finBits neg (zero_isPattern neg), signedUnits_cast]; simp
  refine .inl ⟨0, hv, by norm_num, fun f u _ => ⟨by simp, fun h hne => absurd ?_ hne⟩⟩
  simpa using h.symm

/-- An integer is its sign and its magnitude, as `ofExact` takes them. -/
theorem sign_mul_natAbs (z : Int) : (if decide (z < 0) = true then (-1 : ℚ) else 1) * (z.natAbs : ℚ) = z := by
  rw [Nat.cast_natAbs, Int.cast_abs]
  by_cases hz : z < 0
  · rw [if_pos (decide_eq_true hz), abs_of_neg (by exact_mod_cast hz)]; ring
  · rw [if_neg (by simpa using hz), abs_of_nonneg (by exact_mod_cast not_lt.1 hz), one_mul]

/-- A whole number of units is rounded to the pattern nearest to its rational. -/
theorem ofExact_units_nearest (z : Int) (nan : F32) :
    nearestTo ((z : ℚ) / 2 ^ 149) ((FVal.ofExact (decide (z < 0)) z.natAbs 1).toBits nan) := by
  have h := ofExact_nearest (decide (z < 0)) z.natAbs 1 one_pos nan
  rwa [Nat.cast_one, div_one, ← mul_div_assoc, sign_mul_natAbs] at h

theorem fadd_nearest {a b : FVal} {p q : ℚ} (ha : a.value = some p) (hb : b.value = some q) (nan : F32) :
    nearestTo (p + q) ((fadd a b).toBits nan) := by
  obtain ⟨na, m, rfl, rfl⟩ := fin_of_value ha
  obtain ⟨nb, n, rfl, rfl⟩ := fin_of_value hb
  rw [← add_div, ← Int.cast_add]
  simp only [fadd]
  split
  · next hz => rw [hz, Int.cast_zero, zero_div]; exact nearestTo_zero _
  · exact ofExact_units_nearest _ nan

theorem fsub_nearest {a b : FVal} {p q : ℚ} (ha : a.value = some p) (hb : b.value = some q) (nan : F32) :
    nearestTo (p - q) ((fsub a b).toBits nan) := by
  rw [sub_eq_add_neg]; exact fadd_nearest ha (value_fneg hb) nan

theorem fmul_nearest {a b : FVal} {p q : ℚ} (ha : a.value = some p) (hb : b.value = some q) (nan : F32) :
    nearestTo (p * q) ((fmul a b).toBits nan) := by
  obtain ⟨na, m, rfl, rfl⟩ := fin_of_value ha
  obtain ⟨nb, n, rfl, rfl⟩ := fin_of_value hb
  have hexact : (signedUnits na m : ℚ) / 2 ^ 149 * ((signedUnits nb n : ℚ) / 2 ^ 149)
      = (if (na != nb) = true then -1 else 1) * (((m * n : ℕ) : ℚ) / (unitsPerOne : ℕ) / 2 ^ 149) := by
    rw [signedUnits_cast, signedUnits_cast, unitsPerOne]
    push_cast
    cases na <;> cases nb <;> simp <;> ring
  rw [hexact]
  exact ofExact_nearest _ _ _ (by unfold unitsPerOne; positivity) nan

theorem f32OfInt_nearest (n : Int) : nearestTo (n : ℚ) (f32OfInt n) := by
  have h := ofExact_nearest (decide (n < 0)) (n.natAbs * unitsPerOne) 1 one_pos 0
  rwa [Nat.cast_mul, Nat.cast_one, div_one, unitsPerOne, Nat.cast_pow, Nat.cast_ofNat,
    mul_div_cancel_right₀ _ (by positivity), sign_mul_natAbs] at h

theorem rnd32_nearest (n : Nat) {d : Nat} (hd : 0 < d) : nearestTo ((n : ℚ) / d) (rnd32 n d) := by
  have h := ofExact_nearest false (n * unitsPerOne) d hd 0
  rwa [if_neg Bool.false_ne_true, one_mul, Nat.cast_mul, unitsPerOne, Nat.cast_pow, Nat.cast_ofNat, div_right_comm,
    mul_div_cancel_right₀ _ (by positivity)] at h

/-! Default results: NaNs, infinities and zeros (R89's row on overflow and invalid). -/

@[simp] theorem fadd_nan_left (v : FVal) : fadd .nan v = .nan := rfl
@[simp] theorem fadd_nan_right (v : FVal) : fadd v .nan = .nan := by cases v <;> rfl
@[simp] theorem fmul_nan_left (v : FVal) : fmul .nan v = .nan := rfl
@[simp] theorem fmul_nan_right (v : FVal) : fmul v .nan = .nan := by cases v <;> rfl
@[simp] theorem fsub_nan_left (v : FVal) : fsub .nan v = .nan := rfl
@[simp] theorem fsub_nan_right (v : FVal) : fsub v .nan = .nan := fadd_nan_right v

@[simp] theorem fadd_inf_inf (a b : Bool) : fadd (.inf a) (.inf b) = if a = b then .inf a else .nan := rfl
@[simp] theorem fadd_inf_fin (a b : Bool) (u : Nat) : fadd (.inf a) (.fin b u) = .inf a := rfl
@[simp] theorem fadd_fin_inf (a b : Bool) (u : Nat) : fadd (.fin b u) (.inf a) = .inf a := rfl

@[simp] theorem fsub_inf_inf (a b : Bool) : fsub (.inf a) (.inf b) = if a = !b then .inf a else .nan := rfl
@[simp] theorem fsub_inf_fin (a b : Bool) (u : Nat) : fsub (.inf a) (.fin b u) = .inf a := rfl
@[simp] theorem fsub_fin_inf (a b : Bool) (u : Nat) : fsub (.fin b u) (.inf a) = .inf (!a) := rfl

@[simp] theorem fmul_inf_inf (a b : Bool) : fmul (.inf a) (.inf b) = .inf (a != b) := rfl
@[simp] theorem fmul_inf_fin (a b : Bool) (u : Nat) :
    fmul (.inf a) (.fin b u) = if u = 0 then .nan else .inf (a != b) := rfl
@[simp] theorem fmul_fin_inf (a b : Bool) (u : Nat) :
    fmul (.fin b u) (.inf a) = if u = 0 then .nan else .inf (b != a) := rfl

/-- A sum of zeros is -0.0 only where both are negative. -/
@[simp] theorem fadd_zero_zero (a b : Bool) : fadd (.fin a 0) (.fin b 0) = .fin (a && b) 0 := by
  cases a <;> cases b <;> rfl

/-- A difference of zeros is -0.0 only for -0.0 less +0.0. -/
@[simp] theorem fsub_zero_zero (a b : Bool) : fsub (.fin a 0) (.fin b 0) = .fin (a && !b) 0 := fadd_zero_zero a !b

/-- A finite number and its negative sum to +0.0. -/
theorem fadd_neg_self (a : Bool) (u : Nat) : fadd (.fin a u) (.fin (!a) u) = .fin false 0 := by
  simp only [fadd, signedUnits_not, add_neg_cancel, if_true, Bool.and_not_self]

theorem fsub_self (a : Bool) (u : Nat) : fsub (.fin a u) (.fin a u) = .fin false 0 := fadd_neg_self a u

/-- A rounding of 0 is a zero of its sign. -/
theorem ofExact_zero (neg : Bool) (d : Nat) : FVal.ofExact neg 0 d = .fin neg 0 := by
  have hr : roundUnits 0 d = 0 := by simp [roundUnits, divNearestEven]
  rw [FVal.ofExact, hr, if_neg (by rw [overflowUnits_eq, Nat.not_le]; positivity)]

@[simp] theorem fmul_zero_zero (a b : Bool) : fmul (.fin a 0) (.fin b 0) = .fin (a != b) 0 := ofExact_zero _ _

/-- A finite product has the sign of its operands, overflowed or not. -/
theorem fmul_fin_sign (a b : Bool) (u v : Nat) :
    (∃ w, fmul (.fin a u) (.fin b v) = .fin (a != b) w) ∨ fmul (.fin a u) (.fin b v) = .inf (a != b) := by
  simp only [fmul, FVal.ofExact]
  split
  · exact .inr rfl
  · exact .inl ⟨_, rfl⟩

/-- Settles O31: every operation rounds its exact integer result once (`ofExact_nearest`), and the defaults are those
of the lemmas above. -/
theorem arithmeticIsCorrectlyRounded : Obligations.ArithmeticIsCorrectlyRounded := by
  refine ⟨fun a b nan p q ha hb => ⟨fadd_nearest ha hb nan, fsub_nearest ha hb nan, fmul_nearest ha hb nan⟩,
    f32OfInt_nearest, fun n d hd => rnd32_nearest n hd, fun v => by simp, fun a => by simp,
    fun a b u => ⟨fadd_inf_fin a b u, fadd_fin_inf a b u⟩, fun a b => by simp, fun a b u hu => ?_,
    fun a b => ⟨fadd_zero_zero a b, fmul_zero_zero a b⟩, fun a => by simp,
    fun a b u => ⟨fsub_inf_fin a b u, fsub_fin_inf a b u⟩, fsub_zero_zero, fsub_self, fmul_fin_sign,
    fun a u _ => fadd_neg_self a u⟩
  have hu0 : u ≠ 0 := hu.ne'
  simp [hu0, bne_comm]

end Sys2Proof.Machine
end

section
/-! PROOF. The single writes of each command compose to the command (20_memory.md R41, log 9). -/

namespace Sys2Proof.Machine

theorem apply_recordWrites (rid : ChannelId) (rval : BitVec 12) (s : State) :
    applyWrites (recordWrites rid rval s) s = s.takeRecord rid rval := by
  unfold recordWrites State.takeRecord
  cases matchRow s.cfg.pattern rid with
  | none => rfl
  | some k =>
    by_cases hfull : s.cfg.spc ≤ (s.chan k).fill.toNat
    · simp only [if_pos hfull]; rfl
    · simp only [if_neg hfull]
      simp [applyWrites_cons, applyWrites_nil, Write.apply, setChan_setChan, Channel.append]

theorem apply_gapfillWrites {s : State} (h : s.wf) : applyWrites (gapfillWrites s) s = s.gapfillAll :=
  apply_rowsWrites (gapfillRowWrites s.cfg.spc) (fun _ c => c.gapfill s.cfg.spc) s fun ch t ht =>
    apply_gapfillRowWrites s.cfg.spc ch t (by rw [ht]; exact (h.2 ch).1)

theorem apply_filterWrites (s : State) : applyWrites (filterWrites s) s = s.filterAll :=
  apply_rowsWrites (filterRowWrites s.cfg s.draws) (Channel.filterPasses s.cfg s.draws) s fun ch t _ =>
    apply_filterRowWrites s.cfg s.draws ch t

/-- CYCLE's writes are those of its four bodies, each from the state the one before leaves (R78). -/
theorem apply_cycleWrites {s : State} (h : s.wf) :
    applyWrites (commandWrites .cycle s) s = s.gapfillAll.filterAll.measureRate.publishPacket := by
  simp only [commandWrites, applyWrites_append]
  rw [apply_gapfillWrites h, apply_filterWrites, apply_rateWrites, apply_publishWrites]

theorem exec_lp_writes (ch : BitVec 4) (s : State) :
    exec (.lp ch) s = .next (applyWrites (commandWrites (.lp ch) s) s) := by
  obtain ⟨k, hk, he⟩ | ⟨hk, he⟩ := exec_lp ch s
  · simp only [he, commandWrites, hk, apply_lpWrites]
  · simp only [he, commandWrites, hk]; rfl

theorem exec_fd_writes (ch : BitVec 4) (s : State) :
    exec (.fd ch) s = .next (applyWrites (commandWrites (.fd ch) s) s) := by
  obtain ⟨k, hk, he⟩ | ⟨hk, he⟩ := exec_fd ch s
  · simp only [he, commandWrites, hk, apply_fdWrites]
  · simp only [he, commandWrites, hk]; rfl

/-! RESET, in the order in which R28 lists the items of state. -/

/-- The zero writes of one row of SPC samples. -/
theorem apply_zeroRowWrites (spc : Nat) (ch : Chan) (s : State) (h : (s.chan ch).row.length = spc) :
    applyWrites ((List.range spc).map fun i => .sample ch i 0) s =
      s.setChan ch { s.chan ch with row := List.replicate spc 0 } := by
  rw [List.range_eq_range', apply_constWrites ch 0 spc 0 s (by omega), List.take_zero, List.nil_append]

/-- RESET's writes compose to the reset state where every row holds SPC samples. -/
theorem apply_resetWrites {s : State} (h : ∀ ch, (s.chan ch).row.length = s.cfg.spc) :
    applyWrites (resetWrites s) s = s.resetBlock := by
  have samples := apply_rowsWrites (fun ch _ => (List.range s.cfg.spc).map fun i => .sample ch i 0)
    (fun _ c => { c with row := List.replicate s.cfg.spc 0 }) s
    fun ch t ht => apply_zeroRowWrites s.cfg.spc ch t (by rw [ht]; exact h ch)
  have cascades (t : State) := apply_rowsWrites (fun ch _ => cascadeWrites ch Cascade.zero)
    (fun _ c => { c with lp := Cascade.zero }) t fun ch u _ => apply_cascadeWrites u ch _
  have allPasses (t : State) := apply_rowsWrites (fun ch _ => allPassWrites ch AllPass.zero)
    (fun _ c => { c with fd := AllPass.zero }) t fun ch u _ => apply_allPassWrites u ch _
  simp only [resetWrites, applyWrites_append, samples, apply_fillClearWrites, cascades, allPasses]
  rfl

/-- The writes of a command, in the order of its pseudocode, compose to the command. -/
theorem exec_eq_applyWrites (i : Instr) {s : State} (h : s.wf) :
    exec i s = .next (applyWrites (commandWrites i s) s) := by
  cases i with
  | nop | fack | rack => rfl
  | record rid rval => exact congrArg Host.Outcome.next (apply_recordWrites rid rval s).symm
  | gapfill => exact congrArg Host.Outcome.next (apply_gapfillWrites h).symm
  | fd ch => exact exec_fd_writes ch s
  | lp ch => exact exec_lp_writes ch s
  | filter => exact congrArg Host.Outcome.next (apply_filterWrites s).symm
  | rate => exact congrArg Host.Outcome.next (apply_rateWrites s).symm
  | publish => exact congrArg Host.Outcome.next (apply_publishWrites s).symm
  | cycle => exact congrArg Host.Outcome.next (apply_cycleWrites h).symm
  | start => exact congrArg Host.Outcome.next (apply_startWrites s).symm
  | reset => exact congrArg Host.Outcome.next (apply_resetWrites fun ch => (h.2 ch).1).symm

/-- Settles O51: the pseudocode's order composes to the command, and every order of RESET's writes to the same state. -/
theorem writesComposeToTheCommand : Obligations.WritesComposeToTheCommand := by
  intro i s ws hwf hord
  rw [exec_eq_applyWrites i hwf]
  unfold commandOrder at hord
  split at hord
  case isTrue hreset => subst hreset; exact congrArg Host.Outcome.next (apply_perm_resetWrites hord s).symm
  case isFalse => rw [hord]

end Sys2Proof.Machine
end

section
/-! PROOF. Invariants of the step (10_state.md R16 to R21): a well-formed state stays well formed, and an unset rate stays
+0.0; the reset state meets both. -/

namespace Sys2Proof.Machine

/-- A step keeps a predicate that every command, IllegalCommand and a FRAME_READY pulse keep and that no pending input, NOW
or draw count touches. Power-on reset needs no premise of its own: it does what RESET does (R99). -/
theorem step_keeps {P : State → Prop}
    (outside : ∀ {s : State} (events : List Event) (now : Timestamp) (draws : Nat), P s →
      P { s with events := events, now := now, draws := draws })
    (frame : ∀ {s : State}, P s → P s.raiseFrame) (illegal : ∀ {s : State}, P s → P s.illegalCommand)
    (command : ∀ {i : Instr} {s t : State}, exec i s = .next t → P s → P t)
    {s t : State} (h : step s = .next t) (hs : P s) : P t := by
  obtain ⟨-, rfl⟩ | ⟨rest, -, rfl⟩ | ⟨x, rest, -, rfl⟩ | ⟨rest, -, rfl⟩ | ⟨_, rest, _, -, -, rfl⟩ | ⟨_, rest, _, -, -, he⟩ :=
    step_cases h
  -- idle, FRAME_READY, NOW, power-on, an illegal word, a command
  · exact hs
  · exact frame (outside rest s.now s.draws hs)
  · exact outside rest x s.draws hs
  · exact command (exec_reset _) (outside rest s.now s.draws hs)
  · exact illegal (outside rest s.now (s.draws + 1) hs)
  · exact command he (outside rest s.now (s.draws + 1) hs)

/-- What the low-pass of every row and IllegalCommand bring about, LP does. -/
theorem of_exec_lp {P : State → Prop} {ch : BitVec 4} {s t : State} (h : exec (.lp ch) s = .next t)
    (pass : ∀ k, P (s.setChan k ((s.chan k).lpPass s.cfg s.draws k))) (illegal : P s.illegalCommand) : P t := by
  obtain ⟨k, -, he⟩ | ⟨-, he⟩ := exec_lp ch s <;> cases he.symm.trans h
  · exact pass k
  · exact illegal

/-- What the fractional delay of rows 1, 3 and 5 and IllegalCommand bring about, FD does. -/
theorem of_exec_fd {P : State → Prop} {ch : BitVec 4} {s t : State} (h : exec (.fd ch) s = .next t)
    (pass : ∀ k, isFdRow k = true → P (s.setChan k ((s.chan k).fdPass s.cfg s.draws k)))
    (illegal : P s.illegalCommand) : P t := by
  obtain ⟨k, hk, he⟩ | ⟨-, he⟩ := exec_fd ch s <;> cases he.symm.trans h
  · exact pass k (isFdRow_of_fdRowOf hk)
  · exact illegal

/-- All that REC can do: nothing, or an append to a row that has a free place (R69). -/
theorem takeRecord_cases (rid : ChannelId) (rval : BitVec 12) (s : State) :
    s.takeRecord rid rval = s
    ∨ ∃ k, (s.chan k).fill.toNat < s.cfg.spc
        ∧ s.takeRecord rid rval = s.setChan k ((s.chan k).append (recordSample rval)) := by
  unfold State.takeRecord
  cases matchRow s.cfg.pattern rid with
  | none => exact .inl rfl
  | some k =>
    by_cases hfull : s.cfg.spc ≤ (s.chan k).fill.toNat
    · exact .inl (if_pos hfull)
    · exact .inr ⟨k, Nat.lt_of_not_le hfull, if_neg hfull⟩

/-! Well-formedness. -/

/-- SPC is at most 512, so a fill index of 10 bits holds it (R6, R17). -/
theorem spc_le_of_sizesOk {cfg : Config} (h : cfg.sizesOk = true) : cfg.spc ≤ 512 := by
  simp only [Config.sizesOk, Bool.and_eq_true, decide_eq_true_eq] at h
  exact h.1.2

/-- Well-formedness is about the parameters and the rows alone. -/
theorem wf_of_sameChans {s t : State} (hs : s.wf) (hcfg : t.cfg = s.cfg) (hch : ∀ ch, t.chan ch = s.chan ch) : t.wf := by
  refine ⟨hcfg ▸ hs.1, fun ch => ?_⟩
  rw [hcfg, hch]
  exact hs.2 ch

/-- A loop over the rows keeps the state well formed where its body keeps each row so. -/
theorem mapChans_wf {s : State} {f : Chan → Channel → Channel} (hs : s.wf)
    (hf : ∀ (ch : Chan) (c : Channel), c.wf s.cfg.spc ch → (f ch c).wf s.cfg.spc ch) : (s.mapChans f).wf := by
  refine ⟨hs.1, fun ch => ?_⟩
  rw [State.mapChans_chan]
  exact hf ch _ (hs.2 ch)

theorem takeRecord_wf (rid : ChannelId) (rval : BitVec 12) {s : State} (hs : s.wf) : (s.takeRecord rid rval).wf := by
  obtain he | ⟨k, hfree, he⟩ := takeRecord_cases rid rval s <;> rw [he]
  · exact hs
  · exact setChan_wf hs (append_wf _ (hs.2 k) (spc_le_of_sizesOk hs.1) hfree)

theorem gapfillAll_wf {s : State} (hs : s.wf) : s.gapfillAll.wf := mapChans_wf hs fun _ _ => gapfill_wf

theorem filterAll_wf {s : State} (hs : s.wf) : s.filterAll.wf := mapChans_wf hs fun _ _ => filterPasses_wf s.cfg s.draws

theorem clearFills_wf {s : State} (hs : s.wf) : s.clearFills.wf := mapChans_wf hs fun _ _ => clearFill_wf

theorem measureRate_wf {s : State} (hs : s.wf) : s.measureRate.wf := wf_of_sameChans hs (by simp) (by simp)

theorem publishPacket_wf {s : State} (hs : s.wf) : s.publishPacket.wf := clearFills_wf (s := s.raiseReady) hs

/-- The reset state of a build within the bounds of R6. -/
theorem resetWith_wf {cfg : Config} (h : cfg.sizesOk = true) : (State.resetWith cfg).wf := by
  refine ⟨h, fun ch => ?_⟩
  rw [State.resetWith_chan]
  exact zero_wf cfg.spc ch

theorem exec_keeps_wf {i : Instr} {s t : State} (h : exec i s = .next t) (hs : s.wf) : t.wf := by
  cases i with
  | record rid rval => cases h; exact takeRecord_wf rid rval hs
  | gapfill => cases h; exact gapfillAll_wf hs
  | filter => cases h; exact filterAll_wf hs
  | lp ch => exact of_exec_lp h (fun k => setChan_wf hs (lpPass_wf _ _ k (hs.2 k))) hs
  | fd ch => exact of_exec_fd h (fun k hk => setChan_wf hs (fdPass_wf _ _ k (hs.2 k) hk)) hs
  | rate => cases h; exact measureRate_wf hs
  | publish => cases h; exact publishPacket_wf hs
  | cycle => cases h; exact publishPacket_wf (measureRate_wf (filterAll_wf (gapfillAll_wf hs)))
  | start => cases h; exact clearFills_wf (s := s) hs
  | reset => cases h; exact resetWith_wf hs.1
  | nop | fack | rack => cases h; exact hs

/-- Settles O41: every command keeps the rows well formed, and nothing else writes them. -/
theorem stepKeepsStateWellFormed : Obligations.StepKeepsStateWellFormed := fun _ _ hs h =>
  step_keeps (P := State.wf) (fun _ _ _ => id) id id exec_keeps_wf h hs

/-! The rate state. -/

/-- RATE seeds the baseline, and a rate that it writes is valid (R74). -/
theorem measureRate_rateOk {s : State} (hs : s.rateOk) : s.measureRate.rateOk := by
  refine ⟨?_, fun h => ?_⟩
  · unfold State.measureRate
    split
    · split
      · exact fun h => nomatch h
      · exact hs.1
    · exact hs.1
  · rw [State.measureRate_rateSeeded] at h
    exact nomatch h

/-- The values of START and RESET. -/
theorem clearRate_rateOk (s : State) : s.clearRate.rateOk := ⟨fun _ => rfl, fun _ => ⟨rfl, rfl⟩⟩

theorem takeRecord_rateOk (rid : ChannelId) (rval : BitVec 12) {s : State} (hs : s.rateOk) :
    (s.takeRecord rid rval).rateOk := by
  obtain he | ⟨k, -, he⟩ := takeRecord_cases rid rval s <;> rw [he] <;> exact hs

theorem exec_keeps_rateOk {i : Instr} {s t : State} (h : exec i s = .next t) (hs : s.rateOk) : t.rateOk := by
  cases i with
  | rate => cases h; exact measureRate_rateOk hs
  | cycle => cases h; exact measureRate_rateOk (s := s.gapfillAll.filterAll) hs
  | start | reset => cases h; exact clearRate_rateOk s
  | record rid rval => cases h; exact takeRecord_rateOk rid rval hs
  | lp ch => exact of_exec_lp h (fun _ => hs) hs
  | fd ch => exact of_exec_fd h (fun _ _ => hs) hs
  | nop | gapfill | filter | publish | fack | rack => cases h; exact hs

/-- Settles O25: RATE and CYCLE write a valid rate, START and RESET unset it, and nothing else writes it. -/
theorem unsetRateStaysZero : Obligations.UnsetRateStaysZero := fun _ _ hs h =>
  step_keeps (P := State.rateOk) (fun _ _ _ => id) id id exec_keeps_rateOk h hs

/-- Settles O42: the reset state, in every build and in the test configuration. -/
theorem resetStateIsWellFormed : Obligations.ResetStateIsWellFormed :=
  ⟨fun cfg h => ⟨resetWith_wf h, clearRate_rateOk (State.resetWith cfg), fun he => nomatch he⟩,
    resetWith_wf (by decide), by decide⟩

end Sys2Proof.Machine
end

section
/-! PROOF. Each piece of state has its writers (10_state.md R16 to R24): one lemma per piece, over every command. -/

namespace Sys2Proof.Machine

/-- Every command completes (R88, R89). -/
theorem exec_total (i : Instr) (s : State) : ∃ t, exec i s = .next t := by
  cases i with
  | lp ch => obtain ⟨_, -, he⟩ | ⟨-, he⟩ := exec_lp ch s <;> exact ⟨_, he⟩
  | fd ch => obtain ⟨_, -, he⟩ | ⟨-, he⟩ := exec_fd ch s <;> exact ⟨_, he⟩
  | nop | record | gapfill | filter | rate | publish | cycle | fack | rack | start | reset => exact ⟨_, rfl⟩

/-- A part of a row that the written row shares with the old one stays in every row. -/
theorem setChan_keeps {α : Type} (part : Channel → α) {s : State} {k : Chan} {c : Channel}
    (h : part c = part (s.chan k)) (ch : Chan) : part ((s.setChan k c).chan ch) = part (s.chan ch) := by
  rw [State.setChan_chan]
  split
  case isTrue hk => rw [hk, h]
  case isFalse => rfl

/-- A part of a row that an append leaves stays in every row over REC. -/
theorem takeRecord_keeps {α : Type} (part : Channel → α) (h : ∀ c v, part (c.append v) = part c) (rid : ChannelId)
    (rval : BitVec 12) (s : State) (ch : Chan) : part ((s.takeRecord rid rval).chan ch) = part (s.chan ch) := by
  obtain he | ⟨k, -, he⟩ := takeRecord_cases rid rval s <;> rw [he]
  exact setChan_keeps part (h _ _) ch

section
variable {i : Instr} {s t : State}

/-- The sample rows (R16). -/
theorem exec_sameRows (h : exec i s = .next t) (hrec : ∀ rid rval, i ≠ .record rid rval) (hfd : ∀ ch, i ≠ .fd ch)
    (hlp : ∀ ch, i ≠ .lp ch) (hi : i ∉ [Instr.gapfill, .filter, .cycle, .reset]) : s.sameRows t := by
  cases i with
  | record rid rval => exact absurd rfl (hrec rid rval)
  | fd ch => exact absurd rfl (hfd ch)
  | lp ch => exact absurd rfl (hlp ch)
  | gapfill | filter | cycle | reset => simp at hi
  | nop | rate | publish | fack | rack | start => cases h; intro ch; simp

/-- The fill indices (R17). -/
theorem exec_sameFills (h : exec i s = .next t) (hrec : ∀ rid rval, i ≠ .record rid rval)
    (hi : i ∉ [Instr.publish, .cycle, .start, .reset]) : s.sameFills t := by
  cases i with
  | record rid rval => exact absurd rfl (hrec rid rval)
  | publish | cycle | start | reset => simp at hi
  | lp ch => exact of_exec_lp h (fun _ => setChan_keeps Channel.fill rfl) fun _ => rfl
  | fd ch => exact of_exec_fd h (fun _ _ => setChan_keeps Channel.fill rfl) fun _ => rfl
  | nop | gapfill | filter | rate | fack | rack => cases h; intro ch; simp

/-- The low-pass state (R18). -/
theorem exec_sameLp (h : exec i s = .next t) (hlp : ∀ ch, i ≠ .lp ch)
    (hi : i ∉ [Instr.filter, .cycle, .reset]) : s.sameLp t := by
  cases i with
  | lp ch => exact absurd rfl (hlp ch)
  | filter | cycle | reset => simp at hi
  | record rid rval => cases h; exact takeRecord_keeps Channel.lp (fun _ _ => rfl) rid rval s
  | fd ch => exact of_exec_fd h (fun _ _ => setChan_keeps Channel.lp rfl) fun _ => rfl
  | nop | gapfill | rate | publish | fack | rack | start => cases h; intro ch; simp

/-- The fractional-delay state (R19). -/
theorem exec_sameFd (h : exec i s = .next t) (hfd : ∀ ch, i ≠ .fd ch)
    (hi : i ∉ [Instr.filter, .cycle, .reset]) : s.sameFd t := by
  cases i with
  | fd ch => exact absurd rfl (hfd ch)
  | filter | cycle | reset => simp at hi
  | record rid rval => cases h; exact takeRecord_keeps Channel.fd (fun _ _ => rfl) rid rval s
  | lp ch => exact of_exec_lp h (fun _ => setChan_keeps Channel.fd rfl) fun _ => rfl
  | nop | gapfill | rate | publish | fack | rack | start => cases h; intro ch; simp

/-- The rate state (R21). -/
theorem exec_sameRate (h : exec i s = .next t) (hi : i ∉ [Instr.rate, .cycle, .start, .reset]) : s.sameRate t := by
  cases i with
  | rate | cycle | start | reset => simp at hi
  | lp ch => exact of_exec_lp h (fun _ => ⟨rfl, rfl, rfl, rfl⟩) ⟨rfl, rfl, rfl, rfl⟩
  | fd ch => exact of_exec_fd h (fun _ _ => ⟨rfl, rfl, rfl, rfl⟩) ⟨rfl, rfl, rfl, rfl⟩
  | nop | record | gapfill | filter | publish | fack | rack => cases h; exact ⟨by simp, by simp, by simp, by simp⟩

/-- FRAME_PENDING (R22). -/
theorem exec_framePending (h : exec i s = .next t) (hi : i ∉ [Instr.fack, .start, .reset]) :
    t.framePending = s.framePending := by
  cases i with
  | fack | start | reset => simp at hi
  | lp ch => exact of_exec_lp (P := fun t => t.framePending = s.framePending) h (fun _ => rfl) rfl
  | fd ch => exact of_exec_fd (P := fun t => t.framePending = s.framePending) h (fun _ _ => rfl) rfl
  | nop | record | gapfill | filter | rate | publish | cycle | rack => cases h; simp

/-- READY (R23). -/
theorem exec_ready (h : exec i s = .next t) (hi : i ∉ [Instr.publish, .cycle, .rack, .start, .reset]) :
    t.ready = s.ready := by
  cases i with
  | publish | cycle | rack | start | reset => simp at hi
  | lp ch => exact of_exec_lp (P := fun t => t.ready = s.ready) h (fun _ => rfl) rfl
  | fd ch => exact of_exec_fd (P := fun t => t.ready = s.ready) h (fun _ _ => rfl) rfl
  | nop | record | gapfill | filter | rate | fack => cases h; simp

/-- ERR_ILL and its record (R24): with legal operands LP and FD raise no IllegalCommand (R53 conditions 5 and 6). -/
theorem exec_sameErr (h : exec i s = .next t) (hwf : i.wf s.cfg = true) (hi : i ≠ .reset) : s.sameErr t := by
  cases i with
  | reset => exact absurd rfl hi
  | lp ch =>
    obtain ⟨k, -, he⟩ | ⟨hnone, -⟩ := exec_lp ch s
    · cases he.symm.trans h
      exact ⟨rfl, rfl⟩
    · exact absurd hwf (Bool.eq_false_iff.mp (lpRowOf_eq_none.mp hnone))
  | fd ch =>
    obtain ⟨k, -, he⟩ | ⟨hnone, -⟩ := exec_fd ch s
    · cases he.symm.trans h
      exact ⟨rfl, rfl⟩
    · exact absurd hwf (Bool.eq_false_iff.mp (fdRowOf_eq_none.mp hnone))
  | nop | record | gapfill | filter | rate | publish | cycle | fack | rack | start => cases h; exact ⟨by simp, by simp⟩

/-- No command writes what is outside the block (R6, R27; logs 3 and 5). -/
theorem exec_sameOutside (h : exec i s = .next t) : s.sameOutside t := by
  cases i with
  | lp ch => exact of_exec_lp h (fun _ => ⟨rfl, rfl, rfl, rfl⟩) ⟨rfl, rfl, rfl, rfl⟩
  | fd ch => exact of_exec_fd h (fun _ _ => ⟨rfl, rfl, rfl, rfl⟩) ⟨rfl, rfl, rfl, rfl⟩
  | nop | record | gapfill | filter | rate | publish | cycle | fack | rack | start | reset =>
    cases h
    exact ⟨by simp, by simp, by simp, by simp⟩

end

/-- Settles O44, piece by piece. -/
theorem eachStateHasItsWriters : Obligations.EachStateHasItsWriters := fun i s =>
  let ⟨t, h⟩ := exec_total i s
  ⟨t, h, exec_sameRows h, exec_sameFills h, exec_sameLp h, exec_sameFd h, exec_sameRate h, exec_framePending h,
    exec_ready h, exec_sameErr h, exec_sameOutside h⟩

end Sys2Proof.Machine
end

section
/-! PROOF. Reset (10_state.md R28), the coalescing flags (R22, R23) and the sticky error bit (R24). -/

namespace Sys2Proof.Machine

/-! Reset. -/

/-- A command that the decoder reads in format N and that is legal in every build (R49). -/
theorem formatNCommand_of_readFormatN {op : BitVec 4} {i : Instr}
    (hread : ∀ w : Word, opField w = op → decodeFields w = readFormatN w i) (hwf : ∀ cfg, i.wf cfg = true) :
    formatNCommand op i := by
  intro cfg w hop
  unfold decode
  rw [hread w hop]
  refine ⟨fun hz => ?_, fun hz => ⟨.formatN, ?_⟩⟩
  · have hok : readFormatN w i = .ok i := if_pos hz
    rw [hok]
    exact if_pos (hwf cfg)
  · have herr : readFormatN w i = .error .formatN := if_neg hz
    rw [herr]

theorem atReset_resetWith (cfg : Config) : (State.resetWith cfg).atReset := by
  refine ⟨fun ch => ?_, rfl, rfl, rfl, rfl, rfl, rfl, rfl⟩
  rw [State.resetWith_chan]
  exact ⟨rfl, rfl, rfl, rfl⟩

/-- The block's state after RESET is that of `State.resetWith`. -/
theorem atReset_resetBlock (s : State) : s.resetBlock.atReset := atReset_resetWith s.cfg

/-- The step on power-on reset. -/
theorem step_powerOn {s : State} {rest : List Event} (h : s.events = .powerOn :: rest) :
    step s = .next { s with events := rest }.resetBlock := by
  unfold step State.take
  rw [h]

/-- Settles O12: the word, the command, power-on reset and the initial state. -/
theorem resetGivesTheResetValues : Obligations.ResetGivesTheResetValues := by
  refine ⟨formatNCommand_of_readFormatN (fun w hop => ?_) fun _ => rfl,
    fun s => ⟨_, exec_reset s, atReset_resetBlock s, exec_sameOutside (exec_reset s), rfl⟩,
    fun s rest hev => ⟨_, step_powerOn hev, atReset_resetBlock _, rfl⟩,
    fun cfg => ⟨atReset_resetWith cfg, rfl⟩, atReset_resetWith _⟩
  unfold decodeFields
  rw [hop]
  rfl

/-! The coalescing flags. -/

/-- The step on a FRAME_READY pulse. -/
theorem step_frameReady {s : State} {rest : List Event} (h : s.events = .frameReady :: rest) :
    step s = .next { s with events := rest }.raiseFrame := by
  unfold step State.take
  rw [h]

/-- FACK, START and RESET clear FRAME_PENDING. -/
theorem exec_clears_framePending (s : State) {i : Instr} (hi : i ∈ [Instr.fack, .start, .reset]) :
    ∃ t, exec i s = .next t ∧ t.framePending = false := by
  simp only [List.mem_cons, List.not_mem_nil, or_false] at hi
  obtain rfl | rfl | rfl := hi
  · exact ⟨_, exec_fack s, rfl⟩
  · exact ⟨_, exec_start s, rfl⟩
  · exact ⟨_, exec_reset s, rfl⟩

/-- Settles O18: the pulse, the three commands that clear the flag, and all others. -/
theorem framePendingCoalesces : Obligations.FramePendingCoalesces :=
  ⟨fun _ _ hev => step_frameReady hev,
    fun s _ hi => exec_clears_framePending s hi,
    fun s i hi => let ⟨t, h⟩ := exec_total i s; ⟨t, h, exec_framePending h hi⟩,
    fun _ => rfl, fun _ => rfl⟩

/-- PUBLISH and CYCLE set READY. -/
theorem exec_sets_ready (s : State) {i : Instr} (hi : i ∈ [Instr.publish, .cycle]) :
    ∃ t, exec i s = .next t ∧ t.ready = true := by
  simp only [List.mem_cons, List.not_mem_nil, or_false] at hi
  obtain rfl | rfl := hi
  · exact ⟨_, exec_publish s, rfl⟩
  · exact ⟨_, exec_cycle s, rfl⟩

/-- RACK, START and RESET clear READY. -/
theorem exec_clears_ready (s : State) {i : Instr} (hi : i ∈ [Instr.rack, .start, .reset]) :
    ∃ t, exec i s = .next t ∧ t.ready = false := by
  simp only [List.mem_cons, List.not_mem_nil, or_false] at hi
  obtain rfl | rfl | rfl := hi
  · exact ⟨_, exec_rack s, rfl⟩
  · exact ⟨_, exec_start s, rfl⟩
  · exact ⟨_, exec_reset s, rfl⟩

/-- Settles O19: the two commands that set the flag, the three that clear it, and all others. -/
theorem readyCoalesces : Obligations.ReadyCoalesces :=
  ⟨fun s _ hi => exec_sets_ready s hi, fun s _ hi => exec_clears_ready s hi,
    fun s i hi => let ⟨t, h⟩ := exec_total i s; ⟨t, h, exec_ready h hi⟩,
    fun _ => rfl, fun _ => rfl⟩

/-! The error bit. -/

/-- A word that decodes is the word of a command whose operands are legal. -/
theorem wf_and_encode_of_decode {cfg : Config} {w : Word} {i : Instr} (h : decode cfg w = .ok i) :
    i.wf cfg = true ∧ encode i = w := by
  unfold decode at h
  cases hf : decodeFields w with
  | error e => rw [hf] at h; cases h
  | ok j =>
    rw [hf] at h
    simp only [checkOperands] at h
    split at h
    case isTrue hwf => cases h; exact ⟨hwf, encode_of_decodeFields hf⟩
    case isFalse => split at h <;> cases h

/-- None of the six conditions of R53 holds of the word of a command whose operands are legal. -/
theorem not_illegalWord_encode {cfg : Config} {i : Instr} (h : i.wf cfg = true) : ¬illegalWord cfg (encode i) := by
  cases i with
  | record rid rval =>
    have hop : (encode (.record rid rval)).extractLsb' 28 4 = 1#4 := opField_formatR 1#4 0#12 rid rval
    have hzero : (encode (.record rid rval)).extractLsb' 16 12 = 0#12 := zeroR_formatR 1#4 0#12 rid rval
    simp [illegalWord, hop, hzero]
  | fd ch =>
    have hop : (encode (.fd ch)).extractLsb' 28 4 = 3#4 := opField_formatC 3#4 ch 0#24
    have hzero : (encode (.fd ch)).extractLsb' 0 24 = 0#24 := zeroC_formatC 3#4 ch 0#24
    have hch : (encode (.fd ch)).extractLsb' 24 4 = ch := chField_formatC 3#4 ch 0#24
    simp only [Instr.wf, fdOperandOk, Bool.and_eq_true, Bool.or_eq_true, beq_iff_eq] at h
    obtain ⟨hen, (rfl | rfl) | rfl⟩ := h <;> simp [illegalWord, hop, hzero, hch, hen]
  | lp ch =>
    have hop : (encode (.lp ch)).extractLsb' 28 4 = 4#4 := opField_formatC 4#4 ch 0#24
    have hzero : (encode (.lp ch)).extractLsb' 0 24 = 0#24 := zeroC_formatC 4#4 ch 0#24
    have hch : (encode (.lp ch)).extractLsb' 24 4 = ch := chField_formatC 4#4 ch 0#24
    simp only [Instr.wf, lpOperandOk, Bool.and_eq_true, decide_eq_true_eq, BitVec.le_def] at h
    simpa [illegalWord, hop, hzero, hch, h.1] using h.2
  | nop | gapfill | filter | rate | publish | cycle | fack | rack | start | reset => simp [illegalWord, encode]

/-- An illegal word does not decode (R53). -/
theorem decode_illegalWord {cfg : Config} {w : Word} (h : illegalWord cfg w) : ∃ e, decode cfg w = .error e := by
  cases hd : decode cfg w with
  | error e => exact ⟨e, rfl⟩
  | ok i =>
    obtain ⟨hwf, rfl⟩ := wf_and_encode_of_decode hd
    exact absurd h (not_illegalWord_encode hwf)

/-- A word that does not decode sets ERR_ILL (R88). -/
theorem step_sets_errIll {s : State} {w : Word} {rest : List Event} (hev : s.events = .command w :: rest)
    (hw : illegalWord s.cfg w) : ∃ t, step s = .next t ∧ t.errIll = true := by
  obtain ⟨e, he⟩ := decode_illegalWord hw
  exact ⟨(s.accept rest).illegalCommand, by rw [step_command hev, he], rfl⟩

/-- A step that clears ERR_ILL takes the word of RESET or power-on reset: every other command that decodes has legal operands
and leaves the bit. -/
theorem input_of_step_clears_errIll {s t : State} (h : step s = .next t) (hs : s.errIll = true) (ht : t.errIll = false) :
    ∃ rest, s.events = .command 0xF0000000#32 :: rest ∨ s.events = .powerOn :: rest := by
  have hst : s.errIll ≠ t.errIll := by simp [hs, ht]
  obtain ⟨-, rfl⟩ | ⟨_, -, rfl⟩ | ⟨_, _, -, rfl⟩ | ⟨rest, hev, -⟩ | ⟨_, _, _, -, -, rfl⟩ | ⟨w, rest, i, hev, hd, he⟩ :=
    step_cases h
  -- idle, FRAME_READY, NOW, power-on, an illegal word, a command
  · exact absurd rfl hst
  · exact absurd rfl hst
  · exact absurd rfl hst
  · exact ⟨rest, .inr hev⟩
  · exact nomatch ht
  · obtain ⟨hwf, rfl⟩ := wf_and_encode_of_decode hd
    by_cases hi : i = .reset
    · subst hi
      exact ⟨rest, .inl hev⟩
    · exact absurd (exec_sameErr he hwf hi).1.symm hst

/-- Settles O20: what sets ERR_ILL, what may clear it, and RESET. -/
theorem errIllIsSticky : Obligations.ErrIllIsSticky :=
  ⟨fun _ _ _ => step_sets_errIll, fun _ _ => input_of_step_clears_errIll,
    fun s => ⟨_, exec_reset s, rfl⟩, fun _ => rfl⟩

end Sys2Proof.Machine
end

section
/-! PROOF. The words assembled from flags and parameters (10_state.md R25, R26). -/

namespace Sys2Proof.Machine

theorem rdWord_status (s : State) : rdWord s 0x000#12 = s.statusWord := rfl
theorem rdWord_config (s : State) : rdWord s 0x001#12 = configWord s.cfg := rfl
theorem rdWord_pattern (s : State) : rdWord s 0x003#12 = patternWord s.cfg := rfl

/-- Settles O46: the five flags from bit 0 on, and 0 above them. -/
theorem statusWordBits : Obligations.StatusWordBits := by
  refine ⟨fun s => ?_, fun cfg => ?_⟩
  · rw [rdWord_status, State.statusWord]
    refine ⟨?_, ?_, ?_, ?_, ?_, ?above⟩
    case above => simp (disch := omega) only [BitVec.extractLsb'_append_eq_of_le]; rfl
    all_goals
      simp only [BitVec.getLsbD_append]
      simp
  · rw [rdWord_status]
    simp [State.statusWord, State.resetWith]

/-- The fields of the CONFIG word below SPC (R26). -/
theorem configWord_low (cfg : Config) :
    (configWord cfg).extractLsb' 0 4 = 6#4 ∧ (configWord cfg).getLsbD 4 = cfg.fdEn
    ∧ (configWord cfg).getLsbD 5 = cfg.lpEn ∧ (configWord cfg).extractLsb' 6 10 = 0#10 := by
  unfold configWord
  refine ⟨extract_low _ 6#4, ?_, ?_, ?_⟩
  · simp only [BitVec.getLsbD_append]; simp
  · simp only [BitVec.getLsbD_append]; simp
  · simp (disch := omega) only [BitVec.extractLsb'_append_eq_of_le]
    exact extract_low _ 0#10

/-- SPC in the CONFIG word, and the bits above it (R26). -/
theorem configWord_spc {cfg : Config} (h : cfg.sizesOk = true) :
    ((configWord cfg).extractLsb' 16 10).toNat = cfg.spc ∧ (configWord cfg).extractLsb' 26 6 = 0#6 := by
  unfold configWord
  simp (disch := omega) only [BitVec.extractLsb'_append_eq_of_le]
  refine ⟨?_, rfl⟩
  have hfield : (0#6 ++ BitVec.ofNat 10 cfg.spc).extractLsb' 0 10 = BitVec.ofNat 10 cfg.spc := extract_low 0#6 _
  have hspc : cfg.spc < 2 ^ 10 := Nat.lt_of_le_of_lt (spc_le_of_sizesOk h) (by decide)
  calc ((0#6 ++ BitVec.ofNat 10 cfg.spc).extractLsb' 0 10).toNat
    _ = (BitVec.ofNat 10 cfg.spc).toNat := congrArg BitVec.toNat hfield
    _ = cfg.spc := (BitVec.toNat_ofNat _ _).trans (Nat.mod_eq_of_lt hspc)

/-- PATTERN[k] in the PATTERN word (R26). -/
theorem patternWord_entry (cfg : Config) (k : Chan) :
    (patternWord cfg).extractLsb' (4 * k.val) 4 = cfg.pattern.get k := by
  unfold patternWord
  fin_cases k <;>
    simp (disch := omega) only [BitVec.extractLsb'_append_eq_of_le, BitVec.extractLsb'_append_eq_of_add_le] <;>
    exact BitVec.extractLsb'_eq_self

theorem patternWord_above (cfg : Config) : (patternWord cfg).extractLsb' 24 8 = 0#8 := by
  unfold patternWord
  simp (disch := omega) only [BitVec.extractLsb'_append_eq_of_le]
  rfl

/-- Settles O47: both words are functions of the parameters, which RESET keeps. -/
theorem configAndPatternWords : Obligations.ConfigAndPatternWords := by
  intro s h
  rw [rdWord_config, rdWord_pattern]
  obtain ⟨hnch, hfd, hlp, hgap⟩ := configWord_low s.cfg
  obtain ⟨hspc, habove⟩ := configWord_spc h
  exact ⟨hnch, hfd, hlp, hgap, hspc, habove, patternWord_entry s.cfg, patternWord_above s.cfg, _, exec_reset s, rfl, rfl⟩

end Sys2Proof.Machine
end

section
/-! PROOF. The read address map (20_memory.md R30 to R35): the region an address lies in, and the word read there. -/

namespace Sys2Proof.Machine

theorem rowSlot_eq_of_eq {n : Nat} {ch : Chan} (h : n = ch.val) (f : Chan → Slot) : rowSlot n f = f ch := by
  subst h
  exact dif_pos ch.isLt

theorem rowSlot_reserved {n : Nat} (h : 6 ≤ n) (f : Chan → Slot) : rowSlot n f = .reserved :=
  dif_neg (Nat.not_lt.mpr h)

theorem toNat_readAddr {n : Nat} (h : n < 2 ^ 12) : (BitVec.ofNat 12 n).toNat = n := Nat.mod_eq_of_lt h

/-- Word n of the LP region (R31). -/
theorem readSlot_lp (spc : Nat) {a : ReadAddr} {n : Nat} (ha : a.toNat = 0x040 + n) (hn : n < 0x030) :
    readSlot spc a = lpSlot n := by
  simp (disch := omega) only [readSlot, ha, if_neg, if_pos, Nat.add_sub_cancel_left]

/-- Word n of the FD region (R31). -/
theorem readSlot_fd (spc : Nat) {a : ReadAddr} {n : Nat} (ha : a.toNat = 0x080 + n) (hn : n < 0x00C) :
    readSlot spc a = fdSlot n := by
  simp (disch := omega) only [readSlot, ha, if_neg, if_pos, Nat.add_sub_cancel_left]

/-- Word n of the sample region (R31). -/
theorem readSlot_samples (spc : Nat) {a : ReadAddr} {n : Nat} (ha : a.toNat = 0x400 + n) :
    readSlot spc a = sampleSlot spc n := by
  simp (disch := omega) only [readSlot, ha, if_neg, Nat.add_sub_cancel_left]

/-- Sample i of row ch in the sample region (R33). -/
theorem sampleSlot_rowMajor {spc i : Nat} (ch : Chan) (h : i < spc) :
    sampleSlot spc (ch.val * spc + i) = .sample ch i := by
  have hpos : 0 < spc := Nat.zero_lt_of_lt h
  have hrow : (ch.val * spc + i) / spc = ch.val := by
    rw [Nat.mul_comm, Nat.mul_add_div hpos, Nat.div_eq_of_lt h, Nat.add_zero]
  rw [sampleSlot, rowSlot_eq_of_eq hrow, Nat.mul_comm, Nat.mul_add_mod, Nat.mod_eq_of_lt h]

/-- Six rows of at most 512 samples fit the 12-bit address space (R6, R30). -/
theorem sampleAddr_lt {spc i : Nat} (ch : Chan) (hspc : spc ≤ 512) (h : i < spc) :
    0x400 + (ch.val * spc + i) < 2 ^ 12 := by
  have hrow : ch.val * spc ≤ 5 * spc := Nat.mul_le_mul_right spc (Nat.le_of_lt_succ ch.isLt)
  omega

/-- Settles O49: the address lies in the sample region, at word ch * SPC + i of it. -/
theorem sampleWordsAreRowMajor : Obligations.SampleWordsAreRowMajor := by
  intro s ch i hsizes hi
  have haddr := toNat_readAddr (sampleAddr_lt ch (spc_le_of_sizesOk hsizes) hi)
  rw [rdWord, Nat.add_assoc, readSlot_samples _ haddr, sampleSlot_rowMajor ch hi]
  rfl

/-- Past the six rows of samples nothing is named (R31). -/
theorem sampleSlot_reserved {spc n : Nat} (hpos : 0 < spc) (h : 6 * spc ≤ n) : sampleSlot spc n = .reserved :=
  rowSlot_reserved ((Nat.le_div_iff_mul_le hpos).mpr h) _

/-- A reserved address names nothing (R31). -/
theorem readSlot_reserved {spc : Nat} {a : ReadAddr} (hpos : 0 < spc) (h : reservedAddr spc a) :
    readSlot spc a = .reserved := by
  obtain h | h | ⟨hlo, hhi⟩ | ⟨hlo, hhi⟩ | ⟨hlo, hhi⟩ | h := h
  · simp only [readSlot, h]; rfl
  · simp only [readSlot, h]; rfl
  · simp (disch := omega) only [readSlot, if_neg, if_pos]
  · simp (disch := omega) only [readSlot, if_neg, if_pos]
  · simp (disch := omega) only [readSlot, if_neg, if_pos]
  · rw [readSlot_samples spc (n := a.toNat - 0x400) (by omega), sampleSlot_reserved hpos (by omega)]

/-- Settles O50: range by range. -/
theorem reservedWordsReadZero : Obligations.ReservedWordsReadZero := by
  intro s a hsizes ha
  simp only [Config.sizesOk, Bool.and_eq_true, decide_eq_true_eq] at hsizes
  obtain ⟨⟨hpos, -⟩, -⟩ := hsizes
  rw [rdWord, readSlot_reserved hpos ha]
  rfl

/-- The high half of PREV_TS above the low half (R31, R35). -/
theorem rdWord_prevTs (s : State) : rdWord s 0x005#12 ++ rdWord s 0x004#12 = s.prevTs :=
  (BitVec.extractLsb'_append_extractLsb'_eq_extractLsb' (x := s.prevTs) rfl).trans BitVec.extractLsb'_eq_self

theorem rdWord_fill (s : State) (ch : Chan) :
    rdWord s (BitVec.ofNat 12 (0x008 + ch.val)) = (s.chan ch).fill.zeroExtend 32 := by
  fin_cases ch <;> rfl

/-- The word of a value of LP[ch] within the eight words of the row (R31). -/
def lpOffset (sec : Section2) (reg : LpReg) : Fin 8 :=
  match sec, reg with
  | .one, .x1 => 0
  | .one, .x2 => 1
  | .one, .y1 => 2
  | .one, .y2 => 3
  | .two, .x1 => 4
  | .two, .x2 => 5
  | .two, .y1 => 6
  | .two, .y2 => 7

theorem lpSlot_lpOffset (ch : Chan) (sec : Section2) (reg : LpReg) :
    lpSlot (lpOffset sec reg + 8 * ch.val) = .lp ch sec reg := by
  fin_cases ch <;> cases sec <;> cases reg <;> rfl

theorem rdWord_lp (s : State) (ch : Chan) (sec : Section2) (reg : LpReg) :
    rdWord s (BitVec.ofNat 12 (0x040 + lpOffset sec reg + 8 * ch.val)) = ((s.chan ch).lp.section2 sec).read reg := by
  rw [rdWord, Nat.add_assoc, readSlot_lp _ (toNat_readAddr (by omega)) (by omega), lpSlot_lpOffset]
  rfl

/-- The word of a value of FD[ch] within the two words of the row (R31). -/
def fdOffset (reg : FdReg) : Fin 2 :=
  match reg with
  | .x1 => 0
  | .y1 => 1

theorem fdSlot_fdOffset (ch : Chan) (reg : FdReg) : fdSlot (fdOffset reg + 2 * ch.val) = .fd ch reg := by
  fin_cases ch <;> cases reg <;> rfl

theorem rdWord_fd (s : State) (ch : Chan) (reg : FdReg) :
    rdWord s (BitVec.ofNat 12 (0x080 + fdOffset reg + 2 * ch.val)) = (s.chan ch).fd.read reg := by
  rw [rdWord, Nat.add_assoc, readSlot_fd _ (toNat_readAddr (by omega)) (by omega), fdSlot_fdOffset]
  rfl

/-- Settles O48: the words of the rate state, and those of each row. -/
theorem namedWordsOfTheReadMap : Obligations.NamedWordsOfTheReadMap := fun s =>
  ⟨rfl, rdWord_prevTs s, fun ch =>
    ⟨rdWord_fill s ch, rdWord_lp s ch .one .x1, rdWord_lp s ch .one .x2, rdWord_lp s ch .one .y1,
      rdWord_lp s ch .one .y2, rdWord_lp s ch .two .x1, rdWord_lp s ch .two .x2, rdWord_lp s ch .two .y1,
      rdWord_lp s ch .two .y2, rdWord_fd s ch .x1, rdWord_fd s ch .y1⟩⟩

end Sys2Proof.Machine
end

section
/-! PROOF. Inputs that are no commands (20_memory.md R36, 43_control.md R86, 60_exceptions.md R98), and that a step stops on
a write of another width alone (R89). -/

namespace Sys2Proof.Machine

/-- The step with no input pending. -/
theorem step_idle {s : State} (h : s.events = []) : step s = .next s := by
  unfold step State.take
  rw [h]

/-- The step on a value driven on NOW. -/
theorem step_timestamp {s : State} {x : Timestamp} {rest : List Event} (h : s.events = .timestamp x :: rest) :
    step s = .next { s with events := rest, now := x } := by
  unfold step State.take
  rw [h]

/-- The step on a command-port write of another width. -/
theorem step_partialWrite {s : State} {n v : Nat} {rest : List Event} (h : s.events = .partialWrite n v :: rest) :
    step s = .refused (.commandWidth n) := by
  unfold step State.take
  rw [h]

/-- Settles O10: input by input. -/
theorem inputsThatAreNoCommands : Obligations.InputsThatAreNoCommands :=
  ⟨fun _ => step_idle, fun _ _ _ => step_timestamp,
    fun _ _ hev => ⟨_, step_powerOn hev, atReset_resetBlock _, rfl, rfl⟩, fun _ _ _ _ => step_partialWrite⟩

/-- A step on a command word answers a next state: that of the command, or of IllegalCommand (R54, R88). -/
theorem step_command_total {s : State} {w : Word} {rest : List Event} (h : s.events = .command w :: rest) :
    ∃ t, step s = .next t := by
  rw [step_command h]
  cases decode s.cfg w with
  | ok i => exact exec_total i (s.accept rest)
  | error e => exact ⟨_, rfl⟩

/-- Settles O11: input by input. -/
theorem stepsStopOnlyOnPartialWrites : Obligations.StepsStopOnlyOnPartialWrites := by
  intro s
  cases hev : s.events with
  | nil => exact .inl ⟨_, step_idle hev⟩
  | cons ev rest =>
    cases ev with
    | command w => exact .inl (step_command_total hev)
    | partialWrite n v => exact .inr ⟨n, v, rest, rfl, step_partialWrite hev⟩
    | frameReady => exact .inl ⟨_, step_frameReady hev⟩
    | timestamp x => exact .inl ⟨_, step_timestamp hev⟩
    | powerOn => exact .inl ⟨_, step_powerOn hev⟩

end Sys2Proof.Machine
end

section
/-! PROOF. Reads that overlap a command see the states between its writes (20_memory.md R41), and the writes of a step compose
to the step (R40). -/

namespace Sys2Proof.Machine

/-- A state is a stage of the writes where it is the state after some number of them. -/
theorem mem_stagesFrom {ws : List Write} {s u : State} :
    u ∈ stagesFrom ws s ↔ ∃ n, n ≤ ws.length ∧ u = applyWrites (ws.take n) s := by
  simp only [stagesFrom_eq, List.mem_map, List.mem_range, Nat.lt_succ_iff, eq_comm]

/-- Settles O53: the word's history holds its value at every stage. -/
theorem overlappingReadsAdmitOldAndWrittenValues : Obligations.OverlappingReadsAdmitOldAndWrittenValues := by
  intro i s a v
  simp only [overlapAdmits, wordHistory, List.mem_map, mem_stagesFrom]
  constructor
  · rintro ⟨ws, hord, _, ⟨n, hn, rfl⟩, rfl⟩
    exact ⟨ws, n, hord, hn, rfl⟩
  · rintro ⟨ws, n, hord, hn, rfl⟩
    exact ⟨ws, hord, _, ⟨n, hn, rfl⟩, rfl⟩

/-- The state with other pending inputs, another level on NOW and another draw count (logs 2, 3, 5). -/
def State.withOutside (s : State) (events : List Event) (now : Timestamp) (draws : Nat) : State :=
  { s with events := events, now := now, draws := draws }

/-- A write neither reads nor writes what is outside the block. -/
theorem apply_withOutside (w : Write) (s : State) (events : List Event) (now : Timestamp) (draws : Nat) :
    w.apply (s.withOutside events now draws) = (w.apply s).withOutside events now draws := by
  cases w <;> rfl

theorem applyWrites_withOutside (ws : List Write) (s : State) (events : List Event) (now : Timestamp) (draws : Nat) :
    applyWrites ws (s.withOutside events now draws) = (applyWrites ws s).withOutside events now draws := by
  induction ws generalizing s with
  | nil => rfl
  | cons w ws ih => rw [applyWrites_cons, apply_withOutside, ih, applyWrites_cons]

/-- A state composed of writes from `s` with other outside fields is the one composed from `s`, up to these fields. -/
theorem withOutside_of_applyWrites {s t : State} {ws : List Write} {events : List Event} {now : Timestamp} {draws : Nat}
    (h : t = applyWrites ws (s.withOutside events now draws)) :
    (applyWrites ws s).withOutside t.events t.now t.draws = t := by
  rw [h, applyWrites_withOutside]
  rfl

/-- Settles O52: each input's writes from the state in which it has been taken. -/
theorem stepWritesComposeToTheStep : Obligations.StepWritesComposeToTheStep := by
  intro s t ws hwf hord h
  unfold stepOrder at hord
  obtain ⟨hev, rfl⟩ | ⟨rest, hev, rfl⟩ | ⟨x, rest, hev, rfl⟩ | ⟨rest, hev, rfl⟩ | ⟨w, rest, e, hev, hd, rfl⟩
    | ⟨w, rest, i, hev, hd, he⟩ := step_cases h <;> rw [hev] at hord
  -- idle, FRAME_READY, NOW, power-on, an illegal word, a command
  · subst hord; rfl
  · subst hord; rfl
  · subst hord; rfl
  · rw [apply_perm_resetWrites hord, apply_resetWrites fun ch => (hwf.2 ch).1]
    rfl
  · simp only [wordOrder, State.accept_cfg, hd] at hord
    subst hord
    rfl
  · simp only [wordOrder, State.accept_cfg, hd] at hord
    have hexec := writesComposeToTheCommand i (s.accept rest) ws hwf hord
    rw [he, Host.Outcome.next.injEq] at hexec
    exact withOutside_of_applyWrites hexec

end Sys2Proof.Machine
end

section
/-! PROOF. A word's history over a run (20_memory.md R34, R40). -/

namespace Sys2Proof.Machine

/-- A run of one step more: the first step, and the run from where it leads. -/
theorem run_succ {M : Host.Core} {n : Nat} {s t : M.State} (h : M.run (n + 1) s = .next t) :
    ∃ u, M.step s = .next u ∧ M.run n u = .next t := by
  unfold Host.Core.run at h
  cases hs : M.step s with
  | next u => rw [hs] at h; exact ⟨u, rfl, h⟩
  | fault r => rw [hs] at h; cases h
  | refused r => rw [hs] at h; cases h

/-- The order of a command's pseudocode, and the listed order of RESET's writes. -/
theorem commandOrder_commandWrites (i : Instr) (s : State) : commandOrder i s (commandWrites i s) := by
  unfold commandOrder
  split
  · exact .refl _
  · rfl

theorem exists_wordOrder (w : Word) (s : State) : ∃ ws, wordOrder w s ws := by
  unfold wordOrder
  cases decode s.cfg w with
  | ok i => exact ⟨_, commandOrder_commandWrites i s⟩
  | error e => exact ⟨_, rfl⟩

/-- Every input has an order in which it may make its writes. -/
theorem exists_stepOrder (s : State) : ∃ ws, stepOrder s ws := by
  unfold stepOrder
  split
  case h_1 w rest _ => exact exists_wordOrder w (s.accept rest)
  case h_3 => exact ⟨_, .refl _⟩
  all_goals exact ⟨_, rfl⟩

/-- The history of a run of one step more: that of the first step's writes, then that of the rest of the run. -/
theorem runHistory_succ {n : Nat} {s u : State} (h : step s = .next u) (a : ReadAddr) (history : List Word) :
    runHistory (n + 1) s a history ↔
      ∃ ws rest, stepOrder s ws ∧ history = wordHistory ws s a ++ rest ∧ runHistory n u a rest := by
  rw [runHistory, h]

theorem wordHistory_head? (ws : List Write) (s : State) (a : ReadAddr) :
    (wordHistory ws s a).head? = some (rdWord s a) := by
  cases ws <;> rfl

/-- Settles O56, by induction on the number of steps. -/
theorem runHistoriesBeginAndEndInTheState : Obligations.RunHistoriesBeginAndEndInTheState := by
  intro n s t a h
  induction n generalizing s with
  | zero =>
    cases h
    exact ⟨⟨_, rfl⟩, fun _ hh => hh ▸ ⟨rfl, rfl⟩⟩
  | succ n ih =>
    obtain ⟨u, hstep, hrun⟩ := run_succ h
    obtain ⟨⟨rest, hrest⟩, hends⟩ := ih u hrun
    simp only [runHistory_succ hstep]
    obtain ⟨ws, hws⟩ := exists_stepOrder s
    refine ⟨⟨_, ws, rest, hws, rfl, hrest⟩, ?_⟩
    rintro _ ⟨ws, rest, -, rfl, hrest⟩
    obtain ⟨-, hlast⟩ := hends rest hrest
    exact ⟨by rw [List.head?_append, wordHistory_head?]; rfl, by rw [List.getLast?_append, hlast]; rfl⟩

end Sys2Proof.Machine
end

section
/-! PROOF. READY is written after every sample write (20_memory.md R43). -/

namespace Sys2Proof.Machine

/-! The writes of GAPFILL and of the filter passes are writes to rows. -/

theorem rowOf_of_mem_gapfillRowWrites {spc : Nat} {ch : Chan} {c : Channel} {w : Write}
    (h : w ∈ gapfillRowWrites spc ch c) : w.rowOf = some ch := by
  obtain h | h := List.mem_append.mp h
  · obtain ⟨-, h⟩ := List.mem_ite_nil_right.mp h
    obtain ⟨i, -, rfl⟩ := List.mem_map.mp h
    rfl
  · obtain ⟨-, h⟩ := List.mem_ite_nil_right.mp h
    obtain h | h := List.mem_append.mp h <;>
      (obtain ⟨-, h⟩ := List.mem_ite_nil_right.mp h; cases List.mem_singleton.mp h; rfl)

theorem rowOf_of_mem_cascadeWrites {ch : Chan} {after : Cascade} {w : Write} (h : w ∈ cascadeWrites ch after) :
    w.rowOf = some ch := by
  simp only [cascadeWrites, biquadWrites, List.cons_append, List.nil_append, List.mem_cons, List.not_mem_nil, or_false] at h
  obtain rfl | rfl | rfl | rfl | rfl | rfl | rfl | rfl := h <;> rfl

theorem rowOf_of_mem_allPassWrites {ch : Chan} {after : AllPass} {w : Write} (h : w ∈ allPassWrites ch after) :
    w.rowOf = some ch := by
  simp only [allPassWrites, List.mem_cons, List.not_mem_nil, or_false] at h
  obtain rfl | rfl := h <;> rfl

theorem rowOf_of_mem_passWrites {σ : Type} {step : Nat → σ → F32 → σ × F32} {stateWrites : σ → List Write} {ch : Chan}
    (hstate : ∀ {st w}, w ∈ stateWrites st → w.rowOf = some ch) {i : Nat} {st : σ} {row : List Sample} {w : Write}
    (h : w ∈ passWrites step stateWrites ch i st row) : w.rowOf = some ch := by
  induction row generalizing i st with
  | nil => cases h
  | cons v vs ih =>
    simp only [passWrites, List.mem_append, List.mem_cons] at h
    obtain h | rfl | h := h
    · exact hstate h
    · rfl
    · exact ih h

theorem rowOf_of_mem_lpWrites {cfg : Config} {draw : Nat} {ch : Chan} {c : Channel} {w : Write}
    (h : w ∈ lpWrites cfg draw ch c) : w.rowOf = some ch :=
  rowOf_of_mem_passWrites rowOf_of_mem_cascadeWrites h

theorem rowOf_of_mem_fdWrites {cfg : Config} {draw : Nat} {ch : Chan} {c : Channel} {w : Write}
    (h : w ∈ fdWrites cfg draw ch c) : w.rowOf = some ch :=
  rowOf_of_mem_passWrites rowOf_of_mem_allPassWrites h

theorem rowOf_of_mem_filterRowWrites {cfg : Config} {draw : Nat} {ch : Chan} {c : Channel} {w : Write}
    (h : w ∈ filterRowWrites cfg draw ch c) : w.rowOf = some ch := by
  have hlp {c : Channel} (hw : w ∈ if cfg.lpEn then lpWrites cfg draw ch c else []) : w.rowOf = some ch :=
    rowOf_of_mem_lpWrites (List.mem_ite_nil_right.mp hw).2
  unfold filterRowWrites at h
  split at h
  · exact (List.mem_append.mp h).elim rowOf_of_mem_fdWrites hlp
  · exact hlp h

/-! Which commands raise READY. -/

theorem ready_not_mem_gapfillWrites (s : State) : .ready true ∉ gapfillWrites s := by
  intro h
  obtain ⟨ch, -, h⟩ := List.mem_flatMap.mp h
  cases rowOf_of_mem_gapfillRowWrites h

theorem ready_not_mem_filterWrites (s : State) : .ready true ∉ filterWrites s := by
  intro h
  obtain ⟨ch, -, h⟩ := List.mem_flatMap.mp h
  cases rowOf_of_mem_filterRowWrites h

theorem ready_not_mem_rateWrites (s : State) : .ready true ∉ rateWrites s := by
  unfold rateWrites
  split
  · split <;> simp
  · simp

theorem ready_not_mem_recordWrites (rid : ChannelId) (rval : BitVec 12) (s : State) :
    .ready true ∉ recordWrites rid rval s := by
  unfold recordWrites
  split
  · simp
  · split <;> simp

/-- No command but PUBLISH and CYCLE writes READY = 1 (R23). -/
theorem ready_not_mem_commandWrites {i : Instr} (hpublish : i ≠ .publish) (hcycle : i ≠ .cycle) (s : State) :
    .ready true ∉ commandWrites i s := by
  cases i with
  | publish => exact absurd rfl hpublish
  | cycle => exact absurd rfl hcycle
  | record rid rval => exact ready_not_mem_recordWrites rid rval s
  | gapfill => exact ready_not_mem_gapfillWrites s
  | filter => exact ready_not_mem_filterWrites s
  | rate => exact ready_not_mem_rateWrites s
  | reset => exact fun h => nomatch isReset_of_mem_resetWrites h
  | lp ch =>
    simp only [commandWrites]
    split
    · simp
    · exact fun h => nomatch rowOf_of_mem_lpWrites h
  | fd ch =>
    simp only [commandWrites]
    split
    · simp
    · exact fun h => nomatch rowOf_of_mem_fdWrites h
  | nop | fack | rack | start => simp [commandWrites, startWrites, fillClearWrites]

/-! A write list in two parts: before READY is raised, and without sample writes. -/

/-- The write leaves every sample row. -/
def Write.keepsRows (w : Write) : Prop := ∀ s : State, s.sameRows (w.apply s)

theorem keepsRows_of_mem_publishWrites {w : Write} (h : w ∈ publishWrites) : w.keepsRows := by
  obtain rfl | h := List.mem_cons.mp h
  · exact fun _ _ => rfl
  · obtain ⟨ch, -, rfl⟩ := List.mem_map.mp h
    exact fun s => setChan_keeps Channel.row (s := s) rfl

/-- The writes of a command up to those that leave the rows; READY is not raised among the first (R43). -/
theorem commandOrder_split {i : Instr} {s : State} {ws : List Write} (h : commandOrder i s ws) :
    ∃ before after, ws = before ++ after ∧ .ready true ∉ before ∧ ∀ w ∈ after, w.keepsRows := by
  have hmem {w : Write} : w ∈ ws ↔ w ∈ commandWrites i s := by
    unfold commandOrder at h
    split at h
    · exact h.mem_iff
    · rw [h]
  by_cases hpublish : i = .publish
  · subst hpublish
    exact ⟨[], publishWrites, h, List.not_mem_nil, fun _ => keepsRows_of_mem_publishWrites⟩
  by_cases hcycle : i = .cycle
  · subst hcycle
    refine ⟨_, publishWrites, h, ?_, fun _ => keepsRows_of_mem_publishWrites⟩
    simp only [List.mem_append, not_or]
    exact ⟨⟨ready_not_mem_gapfillWrites _, ready_not_mem_filterWrites _⟩, ready_not_mem_rateWrites _⟩
  · refine ⟨ws, [], (List.append_nil ws).symm, ?_, fun _ hw => nomatch hw⟩
    rw [hmem]
    exact ready_not_mem_commandWrites hpublish hcycle s

theorem applyWrites_ready {ws : List Write} (h : .ready true ∉ ws) {s : State} (hs : s.ready = false) :
    (applyWrites ws s).ready = false := by
  induction ws generalizing s with
  | nil => exact hs
  | cons w ws ih =>
    rw [List.mem_cons, not_or] at h
    obtain ⟨hw, hws⟩ := h
    rw [applyWrites_cons]
    refine ih hws ?_
    cases w with
    | ready b => simpa [Write.apply] using hw
    | sample | fill | lp | fd | rate | rateValid | rateSeeded | prevTs | framePending | clearErr | illegal => exact hs

theorem applyWrites_sameRows {ws : List Write} (h : ∀ w ∈ ws, w.keepsRows) (s : State) :
    s.sameRows (applyWrites ws s) := by
  induction ws generalizing s with
  | nil => exact fun _ => rfl
  | cons w ws ih =>
    rw [List.forall_mem_cons] at h
    obtain ⟨hw, hws⟩ := h
    exact fun ch => (ih hws (w.apply s) ch).trans (hw s ch)

/-- Settles O55: a stage that shows READY lies in the second part of the writes, and the rest of it leaves the rows. -/
theorem readyFollowsTheSamples : Obligations.ReadyFollowsTheSamples := by
  intro i s u ws hord hs hu hready
  obtain ⟨before, after, rfl, hbefore, hafter⟩ := commandOrder_split hord
  obtain ⟨n, -, rfl⟩ := mem_stagesFrom.mp hu
  by_cases hn : n ≤ before.length
  · rw [List.take_append_of_le_length hn,
      applyWrites_ready (fun h => hbefore (List.mem_of_mem_take h)) hs] at hready
    cases hready
  · have hrest : ∀ w ∈ (before ++ after).drop n, w.keepsRows := by
      rw [List.drop_append, List.drop_eq_nil_of_le (by omega), List.nil_append]
      exact fun w hw => hafter w (List.mem_of_mem_drop hw)
    have hall : applyWrites (before ++ after) s =
        applyWrites ((before ++ after).drop n) (applyWrites ((before ++ after).take n) s) := by
      rw [← applyWrites_append, List.take_append_drop]
    rw [hall]
    exact applyWrites_sameRows hrest _

end Sys2Proof.Machine
end

section
/-! PROOF. STATUS during RESET (20_memory.md R41, 43_control.md R84). -/

namespace Sys2Proof.Machine

/-- The flag in bit k of STATUS (R25). -/
def State.statusFlag (s : State) (k : Fin 5) : Bool :=
  match k with
  | 0 => s.framePending
  | 1 => s.ready
  | 2 => s.rateValid
  | 3 => s.rateSeeded
  | 4 => s.errIll

/-- The write that clears the flag in bit k of STATUS. -/
def statusClear (k : Fin 5) : Write :=
  match k with
  | 0 => .framePending false
  | 1 => .ready false
  | 2 => .rateValid false
  | 3 => .rateSeeded false
  | 4 => .clearErr

theorem getLsbD_status (s : State) (k : Fin 5) : (rdWord s 0x000#12).getLsbD k = s.statusFlag k := by
  obtain ⟨h0, h1, h2, h3, h4, -⟩ := statusWordBits.1 s
  fin_cases k
  · exact h0
  · exact h1
  · exact h2
  · exact h3
  · exact h4

theorem getLsbD_status_above (s : State) {i : Nat} (h : 5 ≤ i) : (rdWord s 0x000#12).getLsbD i = false := by
  obtain ⟨-, -, -, -, -, habove⟩ := statusWordBits.1 s
  by_cases hi : i < 32
  · have hbit := congrArg (·.getLsbD (i - 5)) habove
    simpa [BitVec.getLsbD_extractLsb', show i - 5 < 27 by omega, show 5 + (i - 5) = i by omega] using hbit
  · exact BitVec.getLsbD_of_ge _ _ (Nat.le_of_not_lt hi)

/-- A write of a reset value clears the flag that it names and leaves the others. -/
theorem statusFlag_apply {w : Write} (hw : w.isReset) (s : State) (k : Fin 5) :
    (w.apply s).statusFlag k = (s.statusFlag k && decide (statusClear k ≠ w)) := by
  cases w with
  | illegal => cases hw
  | sample | fill | lp | fd | rate | prevTs => fin_cases k <;> exact (Bool.and_true _).symm
  | framePending | ready | rateValid | rateSeeded =>
    cases hw
    fin_cases k <;> simp [State.statusFlag, statusClear, Write.apply]
  | clearErr => fin_cases k <;> simp [State.statusFlag, statusClear, Write.apply]

theorem statusFlag_applyWrites {ws : List Write} (h : ∀ w ∈ ws, w.isReset) (s : State) (k : Fin 5) :
    (applyWrites ws s).statusFlag k = (s.statusFlag k && decide (statusClear k ∉ ws)) := by
  induction ws generalizing s with
  | nil => simp [applyWrites_nil]
  | cons w ws ih =>
    rw [List.forall_mem_cons] at h
    obtain ⟨hw, hws⟩ := h
    rw [applyWrites_cons, ih hws, statusFlag_apply hw, Bool.and_assoc]
    simp

/-- RESET clears every flag (R28). -/
theorem statusClear_mem_resetWrites (s : State) (k : Fin 5) : statusClear k ∈ resetWrites s := by
  refine List.mem_append_right _ ?_
  fin_cases k <;> simp [statusClear]

theorem statusClear_injective : Function.Injective statusClear := by
  unfold Function.Injective
  decide

/-- The write clears a flag that this STATUS word does not show. -/
def clearsBitOutside (v : Word) (w : Write) : Bool := decide (∃ k : Fin 5, statusClear k = w ∧ v.getLsbD k = false)

theorem clearsBitOutside_statusClear (v : Word) (k : Fin 5) :
    clearsBitOutside v (statusClear k) = !v.getLsbD k := by
  simp [clearsBitOutside, statusClear_injective.eq_iff]

/-- An order of RESET's writes that first clears the flags that this STATUS word does not show. -/
def resetTowards (v : Word) (s : State) : List Write :=
  (resetWrites s).filter (clearsBitOutside v) ++ (resetWrites s).filter (!clearsBitOutside v ·)

theorem commandOrder_resetTowards (v : Word) (s : State) : commandOrder .reset s (resetTowards v s) :=
  List.filter_append_perm _ _

/-- The flags once RESET has cleared those that the STATUS word does not show. -/
theorem statusFlag_clearsBitOutside (v : Word) (s : State) (k : Fin 5) :
    (applyWrites ((resetWrites s).filter (clearsBitOutside v)) s).statusFlag k = (s.statusFlag k && v.getLsbD k) := by
  rw [statusFlag_applyWrites fun w hw => isReset_of_mem_resetWrites (List.mem_of_mem_filter hw)]
  simp [List.mem_filter, statusClear_mem_resetWrites, clearsBitOutside_statusClear]

theorem commandOrder_reset {s : State} {ws : List Write} : commandOrder .reset s ws ↔ ws.Perm (resetWrites s) := Iff.rfl

/-- No flag is set while RESET runs (R84). -/
theorem status_during_reset {s : State} {ws : List Write} (h : ∀ w ∈ ws, w.isReset) :
    rdWord (applyWrites ws s) 0x000#12 &&& rdWord s 0x000#12 = rdWord (applyWrites ws s) 0x000#12 := by
  apply BitVec.eq_of_getLsbD_eq
  intro i _
  rw [BitVec.getLsbD_and]
  by_cases hi : i < 5
  · lift i to Fin 5 using hi
    rw [getLsbD_status, getLsbD_status, statusFlag_applyWrites h, Bool.and_right_comm, Bool.and_self]
  · rw [getLsbD_status_above _ (by omega), Bool.false_and]

/-- Any of the flags may be lost first. -/
theorem status_clearsBitOutside {v : Word} {s : State} (h : v &&& rdWord s 0x000#12 = v) :
    rdWord (applyWrites ((resetWrites s).filter (clearsBitOutside v)) s) 0x000#12 = v := by
  have hbit (i : Nat) : v.getLsbD i = (v.getLsbD i && (rdWord s 0x000#12).getLsbD i) := by
    rw [← BitVec.getLsbD_and, h]
  apply BitVec.eq_of_getLsbD_eq
  intro i _
  by_cases hi : i < 5
  · lift i to Fin 5 using hi
    rw [hbit, getLsbD_status, getLsbD_status, statusFlag_clearsBitOutside, Bool.and_comm]
  · rw [hbit, getLsbD_status_above _ (by omega), getLsbD_status_above _ (by omega), Bool.and_false]

/-- Settles O54: RESET's writes set no flag, and any of the flags may be cleared before the others. -/
theorem statusDuringResetMayLoseAnyFlags : Obligations.StatusDuringResetMayLoseAnyFlags := by
  intro s v
  rw [overlappingReadsAdmitOldAndWrittenValues]
  constructor
  · rintro ⟨ws, n, hord, -, rfl⟩
    exact status_during_reset fun w hw =>
      isReset_of_mem_resetWrites ((commandOrder_reset.mp hord).mem_iff.mp (List.mem_of_mem_take hw))
  · intro h
    refine ⟨resetTowards v s, ((resetWrites s).filter (clearsBitOutside v)).length, commandOrder_resetTowards v s, ?_, ?_⟩
    · rw [resetTowards, List.length_append]
      exact Nat.le_add_right _ _
    · rw [resetTowards, List.take_left, status_clearsBitOutside h]

end Sys2Proof.Machine
end

section
/-! PROOF. Reads of one word never go back in its history (20_memory.md R42). -/

namespace Sys2Proof.Machine

/-- The values are those of the history at places that do not decrease. -/
def takesInOrder (history vs : List Word) : Prop :=
  ∃ places : List Nat, places.Pairwise (· ≤ ·) ∧ places.map (history[·]?) = vs.map some

/-- A read gives the first occurrence of its value, and the next read looks on from there. -/
theorem coherentFrom_cons (history : List Word) (v : Word) (vs : List Word) :
    coherentFrom history (v :: vs) = true ↔
      v ∈ history ∧ coherentFrom (history.drop (history.idxOf v)) vs = true := by
  have hdrop : history.dropWhile (· != v) = history.drop (history.idxOf v) := by
    rw [List.dropWhile_eq_drop_findIdx_not]
    simp only [bne, Bool.not_not]
    rfl
  have hmem : v ∈ history ↔ history.drop (history.idxOf v) ≠ [] := by
    rw [ne_eq, List.drop_eq_nil_iff, Nat.not_le, List.idxOf_lt_length_iff]
  rw [coherentFrom, hdrop, hmem]
  cases history.drop (history.idxOf v) <;> simp

/-- Places from `k` on in a list are places in what is left of it after `k`. -/
theorem map_getElem?_drop {history : List Word} {k : Nat} {places : List Nat} (h : ∀ p ∈ places, k ≤ p) :
    (places.map (· - k)).map ((history.drop k)[·]?) = places.map (history[·]?) := by
  rw [List.map_map]
  refine List.map_congr_left fun p hp => ?_
  simp [List.getElem?_drop, Nat.add_sub_cancel' (h p hp)]

/-- No occurrence is before the first. -/
theorem idxOf_le_of_getElem? {history : List Word} {v : Word} {p : Nat} (h : history[p]? = some v) :
    history.idxOf v ≤ p := by
  have htake : (history.take (p + 1))[p]? = some v := by rw [List.getElem?_take_of_succ, h]
  exact Nat.le_of_lt_succ ((List.mem_take_iff_idxOf_lt (List.mem_of_getElem? h)).mp (List.mem_of_getElem? htake))

/-- The first value may be taken at its first occurrence, and the other places then lie from there on. -/
theorem takesInOrder_cons (history : List Word) (v : Word) (vs : List Word) :
    takesInOrder history (v :: vs) ↔ v ∈ history ∧ takesInOrder (history.drop (history.idxOf v)) vs := by
  constructor
  · rintro ⟨_ | ⟨p, places⟩, hsorted, hvals⟩
    · simp at hvals
    · rw [List.pairwise_cons] at hsorted
      rw [List.map_cons, List.map_cons, List.cons.injEq] at hvals
      obtain ⟨hfirst, hrest⟩ := hsorted
      obtain ⟨hp, hvals⟩ := hvals
      have hle : ∀ q ∈ places, history.idxOf v ≤ q := fun q hq => (idxOf_le_of_getElem? hp).trans (hfirst q hq)
      refine ⟨List.mem_of_getElem? hp, places.map (· - history.idxOf v), ?_, ?_⟩
      · exact hrest.map _ fun _ _ h => Nat.sub_le_sub_right h _
      · rw [map_getElem?_drop hle, hvals]
  · rintro ⟨hv, places, hsorted, hvals⟩
    refine ⟨history.idxOf v :: places.map (history.idxOf v + ·), ?_, ?_⟩
    · refine List.pairwise_cons.mpr ⟨?_, hsorted.map _ fun _ _ h => Nat.add_le_add_left h _⟩
      simp
    · rw [List.map_cons, List.getElem?_idxOf hv, List.map_cons, ← hvals, List.map_map]
      simp [Function.comp_def, List.getElem?_drop]

/-- Settles O57: both sides read the first value at its first occurrence and look on from there. -/
theorem readsOfOneWordAreCoherent : Obligations.ReadsOfOneWordAreCoherent := by
  intro history vs
  induction vs generalizing history with
  | nil => exact ⟨fun _ => ⟨[], .nil, rfl⟩, fun _ => rfl⟩
  | cons v vs ih =>
    rw [coherentFrom_cons, ih]
    exact (takesInOrder_cons history v vs).symm

end Sys2Proof.Machine
end

section
/-! PROOF. Decode and encode (30_encoding.md R47 to R56): the opcode map (R52), the two round trips, the six conditions of
R53, and the assembler (R56). -/

namespace Sys2Proof.Machine

/-! The round trips. -/

/-- The word of a command reads back as the command. -/
@[simp] theorem decodeFields_encode (i : Instr) : decodeFields (encode i) = .ok i := by
  cases i with
  | nop => exact Laws.ReadsBack.nop
  | record rid rval => exact Laws.ReadsBack.record rid rval
  | gapfill => exact Laws.ReadsBack.gapfill
  | fd ch => exact Laws.ReadsBack.fd ch
  | lp ch => exact Laws.ReadsBack.lp ch
  | filter => exact Laws.ReadsBack.filter
  | rate => exact Laws.ReadsBack.rate
  | publish => exact Laws.ReadsBack.publish
  | cycle => exact Laws.ReadsBack.cycle
  | fack => exact Laws.ReadsBack.fack
  | rack => exact Laws.ReadsBack.rack
  | start => exact Laws.ReadsBack.start
  | reset => exact Laws.ReadsBack.reset

/-- A word reads as a command exactly where it is that command's word. -/
theorem decodeFields_eq_ok_iff {w : Word} {i : Instr} : decodeFields w = .ok i ↔ w = encode i :=
  ⟨fun h => (encode_of_decodeFields h).symm, fun h => by rw [h, decodeFields_encode]⟩

/-- Settles O3: the fields read back, and the operand check passes by the premise. -/
theorem encodedCommandsDecodeBack : Obligations.EncodedCommandsDecodeBack := by
  intro cfg i hwf
  rw [decode, decodeFields_encode]
  exact if_pos hwf

/-- Settles O4. -/
theorem decodedWordsAreEncodings : Obligations.DecodedWordsAreEncodings := fun _ _ _ => wf_and_encode_of_decode

/-! The opcode map (R52). -/

/-- The mask of format N takes every bit. -/
theorem and_maskN (w : Word) : w &&& 0xFFFFFFFF#32 = w := BitVec.and_allOnes

/-- The mask of format C takes every bit but CH. -/
theorem and_maskC (op ch : BitVec 4) (z : BitVec 24) :
    (op ++ ch ++ z : Word) &&& 0xF0FFFFFF#32 = op ++ 0#4 ++ z := by
  have hmask : 0xF0FFFFFF#32 = BitVec.allOnes 4 ++ 0#4 ++ BitVec.allOnes 24 := rfl
  rw [hmask, BitVec.and_append, BitVec.and_append, BitVec.and_allOnes, BitVec.and_allOnes, BitVec.and_zero]

/-- The mask of format R takes every bit but RID and RVAL. -/
theorem and_maskR (op rid : BitVec 4) (z rval : BitVec 12) :
    (op ++ z ++ rid ++ rval : Word) &&& 0xFFFF0000#32 = op ++ z ++ 0#4 ++ 0#12 := by
  have hmask : 0xFFFF0000#32 = BitVec.allOnes 4 ++ BitVec.allOnes 12 ++ 0#4 ++ 0#12 := rfl
  rw [hmask, BitVec.and_append, BitVec.and_append, BitVec.and_append, BitVec.and_allOnes, BitVec.and_allOnes,
    BitVec.and_zero, BitVec.and_zero]

/-- The mask of an illegal row takes OP alone. -/
theorem and_maskOp (op : BitVec 4) (z : BitVec 28) : (op ++ z : Word) &&& 0xF0000000#32 = op ++ 0#28 := by
  have hmask : 0xF0000000#32 = BitVec.allOnes 4 ++ 0#28 := rfl
  rw [hmask, BitVec.and_append, BitVec.and_allOnes, BitVec.and_zero]

/-- A word is the format C word of an OP and a CH exactly where it matches the row of that OP and CH is its field. -/
theorem eq_formatC_iff (w : Word) (op ch : BitVec 4) :
    w = op ++ ch ++ 0#24 ↔ w &&& 0xF0FFFFFF#32 = op ++ 0#4 ++ 0#24 ∧ ch = chField w := by
  constructor
  · rintro rfl
    exact ⟨and_maskC op ch 0#24, (chField_formatC op ch 0#24).symm⟩
  · rintro ⟨hrow, rfl⟩
    have hw := word_formatC w
    rw [← hw, and_maskC] at hrow
    have hop : opField w = op := by simpa only [opField_formatC] using congrArg opField hrow
    have hz : zeroC w = 0#24 := by simpa only [zeroC_formatC] using congrArg zeroC hrow
    rw [hop, hz] at hw
    exact hw.symm

/-- A word is the format R word of an OP and a record exactly where it matches the row of that OP and RID and RVAL are its
fields. -/
theorem eq_formatR_iff (w : Word) (op rid : BitVec 4) (rval : BitVec 12) :
    w = op ++ 0#12 ++ rid ++ rval ↔
      w &&& 0xFFFF0000#32 = op ++ 0#12 ++ 0#4 ++ 0#12 ∧ rid = ridField w ∧ rval = rvalField w := by
  constructor
  · rintro rfl
    exact ⟨and_maskR op rid 0#12 rval, (ridField_formatR op 0#12 rid rval).symm, (rvalField_formatR op 0#12 rid rval).symm⟩
  · rintro ⟨hrow, rfl, rfl⟩
    have hw := word_formatR w
    rw [← hw, and_maskR] at hrow
    have hop : opField w = op := by simpa only [opField_formatR] using congrArg opField hrow
    have hz : zeroR w = 0#12 := by simpa only [zeroR_formatR] using congrArg zeroR hrow
    rw [hop, hz] at hw
    exact hw.symm

/-- A word that matches a row that masks OP alone has the OP of that row. -/
theorem opField_of_and_maskOp {w : Word} {op : BitVec 4} (h : w &&& 0xF0000000#32 = op ++ 0#28) : opField w = op := by
  rw [← word_formatN w, and_maskOp] at h
  simpa only [opField, BitVec.extractLsb'_append_eq_left] using congrArg opField h

/-- A command without operand is selected where the whole word is its match. -/
theorem decodeFields_formatN_iff (w : Word) (i : Instr) :
    decodeFields w = .ok i ↔ w &&& 0xFFFFFFFF#32 = encode i := by
  rw [decodeFields_eq_ok_iff, and_maskN]

/-- OP 0xB, 0xD and 0xE select no command. -/
theorem decodeFields_illegalOp {w : Word} (h : opField w = 0xB#4 ∨ opField w = 0xD#4 ∨ opField w = 0xE#4) :
    decodeFields w = .error .opcode := by
  obtain h | h | h := h <;> (rw [decodeFields, h]; rfl)

/-- Settles O2: a word reads as a command exactly where it is the command's word, format by format. -/
theorem opcodeMapSelectsByMaskAndMatch : Obligations.OpcodeMapSelectsByMaskAndMatch := by
  intro w
  refine ⟨decodeFields_formatN_iff w _, fun rid rval => decodeFields_eq_ok_iff.trans (eq_formatR_iff w 1#4 rid rval),
    decodeFields_formatN_iff w _, fun ch => decodeFields_eq_ok_iff.trans (eq_formatC_iff w 3#4 ch),
    fun ch => decodeFields_eq_ok_iff.trans (eq_formatC_iff w 4#4 ch),
    decodeFields_formatN_iff w _, decodeFields_formatN_iff w _, decodeFields_formatN_iff w _,
    decodeFields_formatN_iff w _, decodeFields_formatN_iff w _, decodeFields_formatN_iff w _,
    decodeFields_formatN_iff w _, decodeFields_formatN_iff w _, fun h i hi => ?_⟩
  have hop := h.imp (opField_of_and_maskOp (op := 0xB#4))
    (Or.imp (opField_of_and_maskOp (op := 0xD#4)) (opField_of_and_maskOp (op := 0xE#4)))
  rw [decodeFields_illegalOp hop] at hi
  cases hi

/-! The six conditions (R53). -/

/-- The OPs by format: those of no row, and those of formats N, C and R. -/
theorem op_cases (op : BitVec 4) :
    (op = 0xB#4 ∨ op = 0xD#4 ∨ op = 0xE#4)
    ∨ op ∈ [0x0#4, 0x2#4, 0x5#4, 0x6#4, 0x7#4, 0x8#4, 0x9#4, 0xA#4, 0xC#4, 0xF#4] ∨ op ∈ [0x3#4, 0x4#4] ∨ op = 0x1#4 := by
  revert op
  decide

theorem decodeFields_formatN {w : Word}
    (h : opField w ∈ [0x0#4, 0x2#4, 0x5#4, 0x6#4, 0x7#4, 0x8#4, 0x9#4, 0xA#4, 0xC#4, 0xF#4]) :
    ∃ i, decodeFields w = readFormatN w i := by
  simp only [List.mem_cons, List.not_mem_nil, or_false] at h
  unfold decodeFields
  obtain h | h | h | h | h | h | h | h | h | h := h <;> (rw [h]; exact ⟨_, rfl⟩)

theorem decodeFields_formatC {w : Word} (h : opField w ∈ [0x3#4, 0x4#4]) :
    ∃ i, decodeFields w = readFormatC w i := by
  simp only [List.mem_cons, List.not_mem_nil, or_false] at h
  unfold decodeFields
  obtain h | h := h <;> (rw [h]; exact ⟨_, rfl⟩)

theorem decodeFields_formatR {w : Word} (h : opField w = 0x1#4) : decodeFields w = readFormatR w := by
  rw [decodeFields, h]
  rfl

section
variable {cfg : Config} {w : Word} {e : IllegalCause}

/-- A word that reads as no command is under one of the conditions 1 to 4: that of its format. -/
theorem illegalWord_of_decodeFields_error (h : decodeFields w = .error e) : illegalWord cfg w := by
  obtain hop | hop | hop | hop := op_cases (opField w)
  · exact .inl hop
  · obtain ⟨i, hread⟩ := decodeFields_formatN hop
    exact .inr (.inl ⟨hop, fun hz => nomatch (if_pos hz).symm.trans (hread.symm.trans h)⟩)
  · obtain ⟨i, hread⟩ := decodeFields_formatC hop
    exact .inr (.inr (.inl ⟨hop, fun hz => nomatch (if_pos hz).symm.trans (hread.symm.trans h)⟩))
  · exact .inr (.inr (.inr (.inl
      ⟨hop, fun hz => nomatch (if_pos hz).symm.trans ((decodeFields_formatR hop).symm.trans h)⟩)))

/-- The word of a command whose operand is illegal is under condition 5 or 6. -/
theorem illegalWord_encode {i : Instr} (h : i.wf cfg = false) : illegalWord cfg (encode i) := by
  cases i with
  | lp ch =>
    have hop : (encode (.lp ch)).extractLsb' 28 4 = 4#4 := opField_formatC 4#4 ch 0#24
    have hch : (encode (.lp ch)).extractLsb' 24 4 = ch := chField_formatC 4#4 ch 0#24
    refine .inr (.inr (.inr (.inr (.inl ⟨hop, ?_⟩))))
    rw [hch]
    simpa [Instr.wf, lpOperandOk, BitVec.le_def, imp_iff_not_or] using h
  | fd ch =>
    have hop : (encode (.fd ch)).extractLsb' 28 4 = 3#4 := opField_formatC 3#4 ch 0#24
    have hch : (encode (.fd ch)).extractLsb' 24 4 = ch := chField_formatC 3#4 ch 0#24
    refine .inr (.inr (.inr (.inr (.inr ⟨hop, ?_⟩))))
    rw [hch]
    simpa [Instr.wf, fdOperandOk, imp_iff_not_or, BitVec.toNat_eq, and_assoc] using h
  | nop | record | gapfill | filter | rate | publish | cycle | fack | rack | start | reset => cases h

/-- A word that does not decode is illegal (R53). -/
theorem illegalWord_of_decode_error (h : decode cfg w = .error e) : illegalWord cfg w := by
  unfold decode at h
  cases hf : decodeFields w with
  | error c => exact illegalWord_of_decodeFields_error hf
  | ok i =>
    have hwf : i.wf cfg = false := by
      rw [hf] at h
      exact Bool.eq_false_iff.mpr fun hwf => nomatch (if_pos hwf).symm.trans h
    rw [← encode_of_decodeFields hf]
    exact illegalWord_encode hwf

end

/-- The step on an illegal word is IllegalCommand (R88). -/
theorem step_illegalWord {s : State} {w : Word} {rest : List Event} (hev : s.events = .command w :: rest)
    (hw : illegalWord s.cfg w) : step s = .next (s.accept rest).illegalCommand := by
  obtain ⟨e, he⟩ := decode_illegalWord hw
  rw [step_command hev, he]

/-- Settles O5: what does not decode is under a condition, and the other way round; IllegalCommand writes ERR_ILL. -/
theorem illegalWordsAreTheSixConditions : Obligations.IllegalWordsAreTheSixConditions := by
  refine ⟨fun cfg w => ⟨fun ⟨_, he⟩ => illegalWord_of_decode_error he, decode_illegalWord⟩, fun s w rest hev hw => ?_⟩
  exact ⟨_, step_illegalWord hev hw, rfl, rfl, fun _ => rfl, fun _ => rfl, fun _ => rfl, fun _ => rfl,
    ⟨rfl, rfl, rfl, rfl⟩, ⟨rfl, rfl⟩⟩

/-! Words and lines of the spec. -/

/-- Settles O1: the model decodes each word. -/
theorem wordsOfTheSpecDecode : Obligations.WordsOfTheSpecDecode := by
  unfold Obligations.WordsOfTheSpecDecode
  decide

/-- Settles O6: the model assembles each line. -/
theorem assemblerGivesTheWordsOfTheSpec : Obligations.AssemblerGivesTheWordsOfTheSpec := by
  unfold Obligations.AssemblerGivesTheWordsOfTheSpec
  decide

end Sys2Proof.Machine
end

section
/-! PROOF. The conversions between samples and binary32 values (41_filters.md R57, R58). -/

namespace Sys2Proof.Machine

/-! A sample as a binary32 value (R57). -/

theorem unitsPerOne_pos : 0 < unitsPerOne := by unfold unitsPerOne; positivity

/-- The binary32 value of a sample has the sign and the magnitude of the sample: 16 bits need no rounding. -/
theorem ofBits_i16ToF32 (v : Sample) :
    FVal.ofBits (i16ToF32 v) = .fin (decide (v.toInt < 0)) (v.toInt.natAbs * unitsPerOne) := by
  have hsmall : v.toInt.natAbs < 2 ^ 24 := by
    have hle := BitVec.le_toInt v
    have hlt := BitVec.toInt_lt (x := v)
    omega
  have hrep := representable_of_small hsmall
  have hexact : FVal.ofExact (decide (v.toInt < 0)) (v.toInt.natAbs * unitsPerOne) 1
      = .fin (decide (v.toInt < 0)) (v.toInt.natAbs * unitsPerOne) := by
    rw [FVal.ofExact, roundUnits_of_representable hrep, if_neg (Nat.not_le.mpr hrep.1)]
  rw [i16ToF32, f32OfInt, hexact]
  exact ofBits_finBits _ hrep

theorem valueOf_i16ToF32 (v : Sample) : valueOf (i16ToF32 v) = some (v.toInt : ℚ) := by
  rw [valueOf, ofBits_i16ToF32, FVal.value, signedUnits_cast, unitsPerOne]
  congr 1
  rw [div_eq_iff (by positivity), ← sign_mul_natAbs v.toInt]
  push_cast
  split <;> ring

/-- -0.0 has a sign that only a sample below 0 has, and such a sample has a magnitude. -/
theorem i16ToF32_ne_negZero (v : Sample) : i16ToF32 v ≠ 0x80000000#32 := by
  intro h
  have hbits := ofBits_i16ToF32 v
  have hzero : FVal.ofBits 0x80000000#32 = .fin true 0 := by decide
  rw [h, hzero, FVal.fin.injEq, eq_comm, decide_eq_true_eq, eq_comm, Nat.mul_eq_zero] at hbits
  obtain ⟨hneg, hmag | hunit⟩ := hbits
  · omega
  · exact absurd hunit unitsPerOne_pos.ne'

/-- Settles O32: the conversion is exact, and its sign is that of the sample. -/
theorem sampleToFloatIsExact : Obligations.SampleToFloatIsExact := fun v =>
  ⟨valueOf_i16ToF32 v, i16ToF32_ne_negZero v⟩

/-! A binary32 value as a sample (R58). -/

/-- The magnitude of the limit of the 16-bit range on the side of a sign. -/
def sampleLimit (neg : Bool) : Nat := if neg then 32768 else 32767

/-- A finite value becomes the whole number of its magnitude, at most the limit on its side, with its sign. -/
theorem fvalToI16_fin (neg : Bool) (u : Nat) :
    fvalToI16 (.fin neg u) = BitVec.ofInt 16 (signedUnits neg (min (sampleLimit neg) (u / unitsPerOne))) := by
  by_cases h : sampleLimit neg * unitsPerOne < u
  · rw [Nat.min_eq_left ((Nat.le_div_iff_mul_le unitsPerOne_pos).mpr h.le)]
    cases neg <;> exact (if_pos h).trans rfl
  · rw [Nat.min_eq_right (Nat.div_le_of_le_mul (by rw [Nat.mul_comm]; exact Nat.le_of_not_lt h))]
    cases neg <;> exact (if_neg h).trans rfl

/-- A number within the limit on its side is a sample. -/
theorem toInt_ofInt_signedUnits {neg : Bool} {k : Nat} (h : k ≤ sampleLimit neg) :
    (BitVec.ofInt 16 (signedUnits neg k)).toInt = signedUnits neg k := by
  rw [BitVec.toInt_ofInt]
  cases neg <;> simp only [sampleLimit, signedUnits, if_true, Bool.false_eq_true, if_false] at h ⊢ <;>
    exact Int.bmod_eq_of_le (by omega) (by omega)

theorem toInt_fvalToI16_fin (neg : Bool) (u : Nat) :
    (fvalToI16 (.fin neg u)).toInt = signedUnits neg (min (sampleLimit neg) (u / unitsPerOne)) := by
  rw [fvalToI16_fin, toInt_ofInt_signedUnits (Nat.min_le_left _ _)]

/-- Truncation toward zero: no larger in magnitude, less than one away, on the same side of zero. -/
theorem truncation_bounds (neg : Bool) (u n : Nat) :
    |((signedUnits neg (u / n) : Int) : ℚ)| ≤ |(signedUnits neg u : ℚ) / n|
      ∧ |(signedUnits neg u : ℚ) / n| - |((signedUnits neg (u / n) : Int) : ℚ)| < 1
      ∧ 0 ≤ ((signedUnits neg (u / n) : Int) : ℚ) * ((signedUnits neg u : ℚ) / n) := by
  have hle : ((u / n : ℕ) : ℚ) ≤ (u : ℚ) / n := Nat.cast_div_le
  have hlt : (u : ℚ) / n < (u / n : ℕ) + 1 := by
    rw [← Nat.floor_div_eq_div (K := ℚ)]
    exact Nat.lt_floor_add_one _
  have habs : ∀ (k : Nat), |((signedUnits neg k : Int) : ℚ)| = k := by
    intro k; rw [signedUnits_cast]; cases neg <;> simp
  have hprod : ((signedUnits neg (u / n) : Int) : ℚ) * ((signedUnits neg u : ℚ) / n) = (u / n : ℕ) * ((u : ℚ) / n) := by
    rw [signedUnits_cast, signedUnits_cast]; cases neg <;> simp [neg_div]
  rw [abs_div, habs, habs, hprod, Nat.abs_cast]
  exact ⟨hle, by linarith, by positivity⟩

/-- A NaN becomes 0. -/
theorem f32ToI16_of_isNanPattern {f : F32} (h : isNanPattern f) : f32ToI16 f = 0 := by
  rw [f32ToI16, ofBits_of_isNanPattern h]; rfl

/-- A finite value past a limit becomes the limit. -/
theorem toInt_f32ToI16_of_limit_le {f : F32} {neg : Bool} {u : Nat} (hf : FVal.ofBits f = .fin neg u)
    (h : sampleLimit neg * unitsPerOne ≤ u) : (f32ToI16 f).toInt = signedUnits neg (sampleLimit neg) := by
  rw [f32ToI16, hf, toInt_fvalToI16_fin, Nat.min_eq_left ((Nat.le_div_iff_mul_le unitsPerOne_pos).mpr h)]

/-- A finite value within the limits is truncated. -/
theorem toInt_f32ToI16_of_le_limit {f : F32} {neg : Bool} {u : Nat} (hf : FVal.ofBits f = .fin neg u)
    (h : u ≤ sampleLimit neg * unitsPerOne) : (f32ToI16 f).toInt = signedUnits neg (u / unitsPerOne) := by
  rw [f32ToI16, hf, toInt_fvalToI16_fin, Nat.min_eq_right (Nat.div_le_of_le_mul (by rwa [Nat.mul_comm]))]

/-- Settles O33: NaN, the infinities, and a finite value past either limit or within both. -/
theorem floatToSampleClampsThenTruncates : Obligations.FloatToSampleClampsThenTruncates := by
  intro f
  refine ⟨f32ToI16_of_isNanPattern, by rintro rfl; decide, by rintro rfl; decide, fun q hq => ?_⟩
  obtain ⟨neg, u, -, hf, rfl⟩ := units_of_valueOf hq
  have hunits : (2 : ℚ) ^ 149 = (unitsPerOne : ℕ) := by unfold unitsPerOne; norm_cast
  have hpos : (0 : ℚ) < (unitsPerOne : ℕ) := by exact_mod_cast unitsPerOne_pos
  rw [hunits]
  refine ⟨fun h => ?_, fun h => ?_, fun hlo hhi => ?_⟩
  · have hz : 32767 * (unitsPerOne : Int) < signedUnits neg u := by exact_mod_cast (lt_div_iff₀ hpos).mp h
    cases neg with
    | false => exact toInt_f32ToI16_of_limit_le hf (show 32767 * unitsPerOne ≤ u by simp [signedUnits] at hz; omega)
    | true => simp [signedUnits] at hz; omega
  · have hz : (signedUnits neg u : Int) < -32768 * unitsPerOne := by exact_mod_cast (div_lt_iff₀ hpos).mp h
    cases neg with
    | false => simp [signedUnits] at hz; omega
    | true => exact toInt_f32ToI16_of_limit_le hf (show 32768 * unitsPerOne ≤ u by simp [signedUnits] at hz; omega)
  · have hzlo : -32768 * (unitsPerOne : Int) ≤ signedUnits neg u := by exact_mod_cast (le_div_iff₀ hpos).mp hlo
    have hzhi : (signedUnits neg u : Int) ≤ 32767 * unitsPerOne := by exact_mod_cast (div_le_iff₀ hpos).mp hhi
    have hle : u ≤ sampleLimit neg * unitsPerOne := by
      cases neg <;> simp [signedUnits, sampleLimit] at hzlo hzhi ⊢ <;> omega
    rw [toInt_f32ToI16_of_le_limit hf hle]
    exact truncation_bounds neg u unitsPerOne

end Sys2Proof.Machine
end

section
/-! PROOF. The filter steps (41_filters.md R59 to R61) and the commands that run them (R63 to R67). -/

namespace Sys2Proof.Machine

/-! The steps. -/

/-- Settles O28: the step is the equation, and its output reads back as the number it was written from. -/
theorem biquadStepIsTheDifferenceEquation : Obligations.BiquadStepIsTheDifferenceEquation := fun draw site _ _ _ =>
  ⟨_, rfl, ofBits_toBits (fsub_isPattern _ _) (ofBits_freeNan draw site)⟩

/-- Settles O29: the cascade is made of its two sections. -/
theorem cascadeFeedsSectionTwo : Obligations.CascadeFeedsSectionTwo := fun _ _ _ _ _ _ =>
  ⟨_, _, _, _, rfl, rfl, rfl⟩

/-- Settles O30: as for a biquad section. -/
theorem allPassStepIsTheDifferenceEquation : Obligations.AllPassStepIsTheDifferenceEquation := fun _ draw ch i _ _ =>
  ⟨_, rfl, ofBits_toBits (fsub_isPattern _ _) (ofBits_freeNan draw ⟨.fd, ch, i⟩)⟩

/-! LP and FD on a legal row. -/

theorem isFdRow_iff {ch : Chan} : isFdRow ch = true ↔ ch = 1 ∨ ch = 3 ∨ ch = 5 := by
  revert ch
  decide

theorem exec_lp_row {s : State} (h : s.cfg.lpEn = true) (ch : Chan) :
    exec (.lp (BitVec.ofNat 4 ch.val)) s = .next (s.setChan ch ((s.chan ch).lpPass s.cfg s.draws ch)) :=
  exec_lp_of_row s rfl (lpRowOf_ofNat h ch)

theorem exec_fd_row {s : State} (h : s.cfg.fdEn = true) {ch : Chan} (hch : ch = 1 ∨ ch = 3 ∨ ch = 5) :
    exec (.fd (BitVec.ofNat 4 ch.val)) s = .next (s.setChan ch ((s.chan ch).fdPass s.cfg s.draws ch)) :=
  exec_fd_of_row s rfl (fdRowOf_ofNat h (isFdRow_iff.mpr hch))

/-- A written row leaves everything but the rows. -/
theorem setChan_frame (s : State) (ch : Chan) (c : Channel) :
    s.sameRate (s.setChan ch c) ∧ s.sameSignals (s.setChan ch c) ∧ s.sameErr (s.setChan ch c)
      ∧ s.sameOutside (s.setChan ch c) :=
  ⟨⟨rfl, rfl, rfl, rfl⟩, ⟨rfl, rfl⟩, ⟨rfl, rfl⟩, rfl, rfl, rfl, rfl⟩

/-- The state of a pass before sample k of its row: the one that the pass over the samples before it leaves. -/
def passState {σ : Type} (step : Nat → σ → F32 → σ × F32) (i : Nat) (start : σ) (row : List Sample) (k : Nat) : σ :=
  (filterPass step i start (row.take k)).1

/-- The step of sample k leads from the state before it to the state before the next, and its output is the sample that the
pass leaves (R63). -/
theorem filterPass_sample {σ : Type} (step : Nat → σ → F32 → σ × F32) (i : Nat) (start : σ) {row : List Sample} {k : Nat}
    (hk : k < row.length) :
    ∃ y, step (i + k) (passState step i start row k) (i16ToF32 (rowAt row k)) = (passState step i start row (k + 1), y)
      ∧ rowAt (filterPass step i start row).2 k = f32ToI16 y := by
  induction row generalizing i start k with
  | nil => exact absurd hk (Nat.not_lt_zero k)
  | cons v vs ih =>
    cases k with
    | zero => exact ⟨_, rfl, rfl⟩
    | succ k =>
      have h := ih (i + 1) (step i start (i16ToF32 v)).1 (Nat.lt_of_succ_lt_succ hk)
      rwa [Nat.add_right_comm] at h

/-- The pass of a row of n samples, from its first state to the one it leaves. -/
theorem filterPass_states {σ : Type} (step : Nat → σ → F32 → σ × F32) (start : σ) {row : List Sample} {n : Nat}
    (hn : row.length = n) :
    ∃ st : Nat → σ, st 0 = start ∧ (filterPass step 0 start row).1 = st n
      ∧ ∀ k, k < n → ∃ y, step k (st k) (i16ToF32 (rowAt row k)) = (st (k + 1), y)
          ∧ rowAt (filterPass step 0 start row).2 k = f32ToI16 y := by
  subst hn
  refine ⟨passState step 0 start row, rfl, by rw [passState, List.take_length], fun k hk => ?_⟩
  simpa only [Nat.zero_add] using filterPass_sample step 0 start hk

/-- Settles O34: `filterPass_states` for each of the two passes, and the frame of a written row. -/
theorem passesRunTheirStepOverTheRow : Obligations.PassesRunTheirStepOverTheRow := by
  intro s ch hs
  have hlen : (s.chan ch).row.length = s.cfg.spc := (hs.2 ch).1
  have others (c : Channel) (k : Chan) (hk : k ≠ ch) : (s.setChan ch c).chan k = s.chan k := State.setChan_chan_ne s c hk
  refine ⟨fun hen => ⟨_, exec_lp_row hen ch, ?_⟩, fun hen hch => ⟨_, exec_fd_row hen hch, ?_⟩⟩
  · simp only [State.sample, State.setChan_chan_self, lpPass_length]
    exact ⟨filterPass_states (lpStep s.cfg s.draws ch) _ hlen, hlen, rfl, rfl, others _, setChan_frame s ch _⟩
  · simp only [State.sample, State.setChan_chan_self, fdPass_length]
    exact ⟨filterPass_states (fdStepAt s.cfg s.draws ch) _ hlen, hlen, rfl, rfl, others _, setChan_frame s ch _⟩

/-! LP and FD on an illegal operand. -/

theorem lpOperandOk_eq_false {cfg : Config} {ch : BitVec 4} (h : cfg.lpEn = false ∨ 5 < ch.toNat) :
    lpOperandOk cfg ch = false := by
  simpa [lpOperandOk, BitVec.le_def, imp_iff_not_or] using h

theorem fdOperandOk_eq_false {cfg : Config} {ch : BitVec 4} (h : cfg.fdEn = false ∨ ch.toNat ∉ [1, 3, 5]) :
    fdOperandOk cfg ch = false := by
  simpa [fdOperandOk, imp_iff_not_or, BitVec.toNat_eq, and_assoc] using h

/-- Settles O35: an operand that is illegal by R53 names no row. -/
theorem illegalOperandsRaiseIllegalCommand : Obligations.IllegalOperandsRaiseIllegalCommand := by
  refine ⟨fun s ch h => ?_, fun s ch h => ?_⟩
  · obtain ⟨_, hrow, -⟩ | ⟨-, he⟩ := exec_lp ch s
    · exact nomatch hrow.symm.trans (lpRowOf_eq_none.mpr (lpOperandOk_eq_false h))
    · exact he
  · obtain ⟨_, hrow, -⟩ | ⟨-, he⟩ := exec_fd ch s
    · exact nomatch hrow.symm.trans (fdRowOf_eq_none.mpr (fdOperandOk_eq_false h))
    · exact he

/-! FILTER. -/

theorem filterPasses_fdRow {cfg : Config} {ch : Chan} (hen : cfg.fdEn = true) (hch : ch = 1 ∨ ch = 3 ∨ ch = 5) (draw : Nat)
    (c : Channel) : c.filterPasses cfg draw ch =
      if cfg.lpEn then (c.fdPass cfg draw ch).lpPass cfg draw ch else c.fdPass cfg draw ch := by
  simp only [Channel.filterPasses, hen, isFdRow_iff.mpr hch, Bool.and_self, if_true]

theorem filterPasses_noFd {cfg : Config} {ch : Chan} (h : ¬(cfg.fdEn = true ∧ (ch = 1 ∨ ch = 3 ∨ ch = 5))) (draw : Nat)
    (c : Channel) : c.filterPasses cfg draw ch = if cfg.lpEn then c.lpPass cfg draw ch else c := by
  rw [← isFdRow_iff, ← Bool.and_eq_true] at h
  simp only [Channel.filterPasses, if_neg h]

/-- With both filters disabled FILTER leaves the state. -/
theorem filterAll_disabled {s : State} (hfd : s.cfg.fdEn = false) (hlp : s.cfg.lpEn = false) : s.filterAll = s := by
  refine State.ext_chan rfl (fun ch => ?_) rfl rfl rfl rfl rfl rfl rfl rfl rfl rfl rfl
  rw [State.filterAll_chan, filterPasses_noFd (by simp [hfd]), hlp]
  rfl

theorem formatNCommand_filter : formatNCommand 0x5#4 .filter :=
  formatNCommand_of_readFormatN (fun w hop => by rw [decodeFields, hop]; rfl) fun _ => rfl

/-- Settles O36: each row's two passes are those of FD and LP on that row. -/
theorem filterRunsTheEnabledPasses : Obligations.FilterRunsTheEnabledPasses := by
  refine ⟨formatNCommand_filter, fun s => ⟨_, exec_filter s, fun ch hfd => ?_, fun ch hfd => ?_, fun ch => by simp, ?_⟩,
    fun s hfd hlp => by rw [exec_filter, filterAll_disabled hfd hlp]⟩
  · refine ⟨_, exec_fd_row hfd.1 hfd.2, fun hlp => ?_, fun hlp => ⟨_, exec_lp_row (s := s.setChan ch _) hlp ch, ?_⟩⟩
    all_goals simp [filterPasses_fdRow hfd.1 hfd.2, hlp]
  · refine ⟨fun hlp => ?_, fun hlp => ⟨_, exec_lp_row hlp ch, ?_⟩⟩
    all_goals simp [filterPasses_noFd hfd, hlp]
  · exact ⟨⟨rfl, rfl, rfl, rfl⟩, ⟨rfl, rfl⟩, ⟨rfl, rfl⟩, rfl, rfl, rfl, rfl⟩

/-- Settles O45: each row after GAPFILL or FILTER is a function of that row, the parameters and the draw counter. -/
theorem rowsDoNotInfluenceEachOther : Obligations.RowsDoNotInfluenceEachOther := by
  intro s t ch i hi hcfg hdraws hrow
  simp only [List.mem_cons, List.not_mem_nil, or_false] at hi
  obtain rfl | rfl := hi
  · refine ⟨_, _, exec_gapfill s, exec_gapfill t, ?_⟩
    rw [State.gapfillAll_chan, State.gapfillAll_chan, hcfg, hrow]
  · refine ⟨_, _, exec_filter s, exec_filter t, ?_⟩
    rw [State.filterAll_chan, State.filterAll_chan, hcfg, hdraws, hrow]

end Sys2Proof.Machine
end

section
/-! PROOF. Zero rows and repeated passes (41_filters.md R64, R65): zero input and zero state give zero output, but not always
+0.0, and a pass over the same row again gives other samples. -/

namespace Sys2Proof.Machine

/-! Arithmetic on zeros. -/

/-- A zero of either sign. -/
def FVal.isZero (v : FVal) : Prop := ∃ neg, v = .fin neg 0

/-- A number that is neither an infinity nor a NaN. -/
def FVal.isFinite (v : FVal) : Prop := ∃ neg u, v = .fin neg u

theorem ofBits_isZero {f : F32} (h : isZero f) : (FVal.ofBits f).isZero := by
  have hlow : f.toNat % 2 ^ 31 = 0 := by simpa using congrArg BitVec.toNat h
  have hf : f = 0x00000000#32 ∨ f = 0x80000000#32 := by bv_omega
  obtain rfl | rfl := hf
  · exact ⟨false, by decide⟩
  · exact ⟨true, by decide⟩

theorem ofBits_isFinite {f : F32} (h : F32.isFinite f = true) : (FVal.ofBits f).isFinite := by
  have he : (f.extractLsb' 23 8).toNat ≠ 255 := fun he => bne_iff_ne.mp h (BitVec.eq_of_toNat_eq he)
  unfold FVal.ofBits
  rw [if_neg he]
  split
  · exact ⟨_, _, rfl⟩
  · exact ⟨_, _, rfl⟩

theorem toBits_isZero {v : FVal} (h : v.isZero) (nan : F32) : isZero (v.toBits nan) := by
  obtain ⟨neg, rfl⟩ := h
  revert neg
  simp only [FVal.toBits]
  decide

theorem fadd_isZero {a b : FVal} (ha : a.isZero) (hb : b.isZero) : (fadd a b).isZero := by
  obtain ⟨na, rfl⟩ := ha
  obtain ⟨nb, rfl⟩ := hb
  exact ⟨_, fadd_zero_zero na nb⟩

theorem fsub_isZero {a b : FVal} (ha : a.isZero) (hb : b.isZero) : (fsub a b).isZero := by
  obtain ⟨na, rfl⟩ := ha
  obtain ⟨nb, rfl⟩ := hb
  exact ⟨_, fsub_zero_zero na nb⟩

/-- Only a finite coefficient: an infinity times a zero is a NaN. -/
theorem fmul_isZero {a b : FVal} (ha : a.isFinite) (hb : b.isZero) : (fmul a b).isZero := by
  obtain ⟨na, u, rfl⟩ := ha
  obtain ⟨nb, rfl⟩ := hb
  exact ⟨na != nb, ofExact_zero _ _⟩

theorem i16ToF32_zero : i16ToF32 0 = 0 := by decide

theorem f32ToI16_of_isZero {f : F32} (h : isZero f) : f32ToI16 f = 0 := by
  obtain ⟨neg, hneg⟩ := ofBits_isZero h
  rw [f32ToI16, hneg]
  cases neg <;> decide

/-- A product of a finite coefficient pattern and a zero pattern. -/
theorem fmul_ofBits_isZero {c x : F32} (hc : F32.isFinite c = true) (hx : isZero x) :
    (fmul (.ofBits c) (.ofBits x)).isZero := fmul_isZero (ofBits_isFinite hc) (ofBits_isZero hx)

/-! The steps on zeros. -/

/-- Every delay-line value of a section is a zero. -/
def Biquad.isZero (b : Biquad) : Prop :=
  Machine.isZero b.x1 ∧ Machine.isZero b.x2 ∧ Machine.isZero b.y1 ∧ Machine.isZero b.y2

/-- Both values of the fractional-delay state are zeros. -/
def AllPass.isZero (a : AllPass) : Prop := Machine.isZero a.x1 ∧ Machine.isZero a.y1

theorem Cascade.isZero_iff {c : Cascade} : c.isZero ↔ c.s1.isZero ∧ c.s2.isZero := by
  simp only [Cascade.isZero, Biquad.isZero, and_assoc]

theorem biquadStep_isZero {c : Coeffs} {st : Biquad} {x : F32} (nan : F32) (hc : c.wf = true) (hst : st.isZero)
    (hx : isZero x) : (biquadStep nan c st x).1.isZero ∧ isZero (biquadStep nan c st x).2 := by
  simp only [Coeffs.wf, Bool.and_eq_true] at hc
  obtain ⟨⟨⟨⟨hb0, hb1⟩, hb2⟩, ha1⟩, ha2⟩ := hc
  obtain ⟨hx1, hx2, hy1, hy2⟩ := hst
  have hy : isZero (biquadStep nan c st x).2 := toBits_isZero (fsub_isZero (fsub_isZero (fadd_isZero (fadd_isZero
    (fmul_ofBits_isZero hb0 hx) (fmul_ofBits_isZero hb1 hx1)) (fmul_ofBits_isZero hb2 hx2))
    (fmul_ofBits_isZero ha1 hy1)) (fmul_ofBits_isZero ha2 hy2)) nan
  exact ⟨⟨hx, hx1, hy, hy1⟩, hy⟩

theorem fdStep_isZero {c : F32} {st : AllPass} {x : F32} (nan : F32) (hc : F32.isFinite c = true) (hst : st.isZero)
    (hx : isZero x) : (fdStep nan c st x).1.isZero ∧ isZero (fdStep nan c st x).2 := by
  obtain ⟨hx1, hy1⟩ := hst
  have hy : isZero (fdStep nan c st x).2 := toBits_isZero (fsub_isZero (fadd_isZero (fmul_ofBits_isZero hc hx)
    (ofBits_isZero hx1)) (fmul_ofBits_isZero hc hy1)) nan
  exact ⟨⟨hx, hy⟩, hy⟩

section
variable {cfg : Config} (hcfg : cfg.wf = true) (draw : Nat) (ch : Chan) (i : Nat)
include hcfg

theorem lpStep_isZero {st : Cascade} {x : F32} (hst : st.isZero) (hx : isZero x) :
    (lpStep cfg draw ch i st x).1.isZero ∧ isZero (lpStep cfg draw ch i st x).2 := by
  simp only [Config.wf, Bool.and_eq_true] at hcfg
  obtain ⟨⟨⟨-, hlp1⟩, hlp2⟩, -⟩ := hcfg
  obtain ⟨hs1, hs2⟩ := Cascade.isZero_iff.mp hst
  obtain ⟨h1, hu⟩ := biquadStep_isZero (freeNan draw ⟨.lp1, ch, i⟩) hlp1 hs1 hx
  obtain ⟨h2, hy⟩ := biquadStep_isZero (freeNan draw ⟨.lp2, ch, i⟩) hlp2 hs2 hu
  exact ⟨Cascade.isZero_iff.mpr ⟨h1, h2⟩, hy⟩

theorem fdStepAt_isZero {st : AllPass} {x : F32} (hst : st.isZero) (hx : isZero x) :
    (fdStepAt cfg draw ch i st x).1.isZero ∧ isZero (fdStepAt cfg draw ch i st x).2 := by
  simp only [Config.wf, Bool.and_eq_true] at hcfg
  obtain ⟨-, hfd⟩ := hcfg
  exact fdStep_isZero _ hfd hst hx

end

/-- A pass over a row of zeros, whose step keeps a set of states and answers a zero from each of them. -/
theorem filterPass_zeroRow {σ : Type} {step : Nat → σ → F32 → σ × F32} {P : σ → Prop}
    (hstep : ∀ i st x, P st → isZero x → P (step i st x).1 ∧ isZero (step i st x).2) (n i : Nat) {st : σ} (hst : P st) :
    P (filterPass step i st (List.replicate n 0)).1
      ∧ (filterPass step i st (List.replicate n 0)).2 = List.replicate n 0 := by
  induction n generalizing i st with
  | zero => exact ⟨hst, rfl⟩
  | succ n ih =>
    obtain ⟨hst', hy⟩ := hstep i st (i16ToF32 0) hst (by rw [i16ToF32_zero]; decide)
    obtain ⟨hlast, hrow⟩ := ih (i + 1) hst'
    refine ⟨hlast, ?_⟩
    rw [List.replicate_succ, filterPass, hrow, f32ToI16_of_isZero hy]

/-- Settles O37: `filterPass_zeroRow` for each of the two passes. -/
theorem zeroRowFromZeroStateStaysZero : Obligations.ZeroRowFromZeroStateStaysZero := by
  intro s ch hcfg hrow
  refine ⟨fun hen hst => ⟨_, exec_lp_row hen ch, ?_⟩, fun hen hch hx1 hy1 => ⟨_, exec_fd_row hen hch, ?_⟩⟩
  · obtain ⟨hlast, hout⟩ := filterPass_zeroRow (lpStep_isZero hcfg s.draws ch) s.cfg.spc 0 hst
    rw [State.setChan_chan_self, Channel.lpPass, hrow]
    exact ⟨hout, hlast⟩
  · obtain ⟨⟨hx, hy⟩, hout⟩ := filterPass_zeroRow (P := AllPass.isZero) (fdStepAt_isZero hcfg s.draws ch) s.cfg.spc 0 ⟨hx1, hy1⟩
    rw [State.setChan_chan_self, Channel.fdPass, hrow]
    exact ⟨hout, hx, hy⟩

/-! The sign of a zero (log 10). -/

/-- A build of one sample whose first section has negative b0, b1, b2 and positive a1, a2: every term of R59 is -0.0. -/
def negativeZeroConfig : Config :=
  { Config.reference with spc := 1, lp1 := ⟨0xBF800000, 0xBF800000, 0xBF800000, 0x3F800000, 0x3F800000⟩ }

/-- From reset, LP leaves -0.0 in the output delay line of section 1. -/
theorem lpPass_leaves_negativeZero :
    (((State.resetWith negativeZeroConfig).chan 0).lpPass negativeZeroConfig 0 0).lp.s1.y1 = 0x80000000#32 := by decide

/-- Refutes O38: -0.0 is not +0.0. -/
theorem not_zeroRowKeepsPositiveZeroState : ¬ Obligations.ZeroRowKeepsPositiveZeroState := by
  intro h
  have hlp := h (State.resetWith negativeZeroConfig) _ 0 (by decide) rfl rfl rfl (exec_lp_row rfl 0)
  have hy1 := congrArg (fun c => c.s1.y1) hlp
  rw [State.setChan_chan_self] at hy1
  exact absurd (lpPass_leaves_negativeZero.symm.trans hy1) (by decide)

/-! A repeated pass (V-LP-2, in the test configuration TC). -/

/-- A constant row with the filter state of reset. -/
def constantRow : Channel := { Channel.zero 4 with row := [100, 100, 100, 100] }

/-- The constant row after one pass. -/
def constantRowOnce : Channel := constantRow.lpPass Config.reference 0 0

/-- The constant row after a second pass, from the state that the first one left. -/
def constantRowTwice : Channel := { constantRowOnce with row := constantRow.row }.lpPass Config.reference 0 0

theorem constantRowOnce_row : constantRowOnce.row = [12, 53, 100, 124] := by decide

theorem constantRowTwice_row : constantRowTwice.row = [129, 129, 128, 128] := by decide

theorem constantRowOnce_y1 : constantRowOnce.lp.s1.y1 = 0x431F6000#32 := by decide

theorem constantRowTwice_y1 : constantRowTwice.lp.s1.y1 = 0x43200280#32 := by decide

/-- LP on row 0 of a state that differs from reset in that row alone. -/
theorem exec_lp_reset_setChan (c : Channel) :
    exec (.lp 0) (State.reset.setChan 0 c) = .next (State.reset.setChan 0 (c.lpPass Config.reference 0 0)) := by
  have hrow : lpRowOf Config.reference 0 = some 0 := lpRowOf_ofNat rfl 0
  rw [exec_lp_of_row (State.reset.setChan 0 c) rfl hrow, State.setChan_chan_self, setChan_setChan]
  rfl

/-- Settles O39: the constant row in row 0 of the reset state. -/
theorem lowPassIsNotIdempotent : Obligations.LowPassIsNotIdempotent := by
  refine ⟨State.reset.setChan 0 constantRow, State.reset.setChan 0 constantRowOnce, State.reset.setChan 0 constantRowTwice,
    by decide, by decide, exec_lp_reset_setChan constantRow, ?_, ?_, ?_⟩
  · rw [setChan_setChan, State.setChan_chan_self, State.setChan_chan_self]
    exact exec_lp_reset_setChan _
  · rw [State.setChan_chan_self, State.setChan_chan_self, constantRowOnce_row, constantRowTwice_row]
    decide
  · rw [State.setChan_chan_self, State.setChan_chan_self]
    intro h
    have hy1 := congrArg (fun c => c.s1.y1) h
    simp only [constantRowOnce_y1, constantRowTwice_y1] at hy1
    exact absurd hy1 (by decide)

end Sys2Proof.Machine
end

section
/-! PROOF. The acquisition commands (42_acquisition.md R68 to R78): where a record goes, the padding and the edge policy of a
row, the rate, the publish, and CYCLE as its four parts. -/

namespace Sys2Proof.Machine

/-! REC (R68, R69). -/

theorem decode_formatR_command : formatRCommand := by
  intro cfg w hop
  rw [decode, decodeFields_formatR hop]
  refine ⟨fun hz => ?_, fun hz => ⟨.formatR, ?_⟩⟩
  · have hok : readFormatR w = .ok (.record (ridField w) (rvalField w)) := if_pos hz
    rw [hok]
    rfl
  · have herr : readFormatR w = .error .formatR := if_neg hz
    rw [herr]

theorem takeRecord_of_noMatch {s : State} {rid : ChannelId} (h : matchRow s.cfg.pattern rid = none) (rval : BitVec 12) :
    s.takeRecord rid rval = s := by
  simp only [State.takeRecord, h]

section
variable {s : State} {rid : ChannelId} {k : Chan} (hk : matchRow s.cfg.pattern rid = some k) (rval : BitVec 12)
include hk

theorem takeRecord_of_full (hfull : s.cfg.spc ≤ (s.chan k).fill.toNat) : s.takeRecord rid rval = s := by
  simp only [State.takeRecord, hk, if_pos hfull]

theorem takeRecord_of_free (hfree : (s.chan k).fill.toNat < s.cfg.spc) :
    s.takeRecord rid rval = s.setChan k ((s.chan k).append (recordSample rval)) := by
  simp only [State.takeRecord, hk, if_neg (Nat.not_le_of_lt hfree)]

end

/-- A sample of a row after an append at a place of the row. -/
theorem rowAt_append {c : Channel} (v : Sample) (h : c.fill.toNat < c.row.length) (i : Nat) :
    rowAt (c.append v).row i = if i = c.fill.toNat then v else rowAt c.row i :=
  rowAt_set v h

theorem append_length (c : Channel) (v : Sample) : (c.append v).row.length = c.row.length := List.length_set

/-- FILL does not wrap below the largest SPC of R6. -/
theorem append_fill_toNat {c : Channel} (v : Sample) (h : c.fill.toNat < 512) :
    (c.append v).fill.toNat = c.fill.toNat + 1 := by
  show (c.fill + 1).toNat = c.fill.toNat + 1
  bv_omega

/-- Settles O21: the record has no row, a full row, or a row with a free place. -/
theorem recAppendsOrDrops : Obligations.RecAppendsOrDrops := by
  refine ⟨decode_formatR_command, fun s rid rval hs => ⟨fun hnone => ?_, fun k hk hfirst => ?_⟩⟩
  · rw [exec_record, takeRecord_of_noMatch (matchRow_none hnone)]
  · have hmatch := matchRow_first hk hfirst
    have hlen : (s.chan k).row.length = s.cfg.spc := (hs.2 k).1
    refine ⟨fun hfull => by rw [exec_record, takeRecord_of_full hmatch rval hfull], fun hfree => ?_⟩
    have hsmall := Nat.lt_of_lt_of_le hfree (spc_le_of_sizesOk hs.1)
    refine ⟨s.setChan k ((s.chan k).append (recordSample rval)),
      by rw [exec_record, takeRecord_of_free hmatch rval hfree], ?_⟩
    rw [State.sample, State.setChan_chan_self]
    refine ⟨?_, fun i hi => ?_, (append_length _ _).trans hlen, append_fill_toNat _ hsmall, rfl, rfl,
      fun j hj => State.setChan_chan_ne s _ hj, setChan_frame s k _⟩
    · rw [rowAt_append _ (hlen ▸ hfree), if_pos rfl]
      rfl
    · rw [State.sample, State.setChan_chan_self, rowAt_append _ (hlen ▸ hfree), if_neg hi]
      rfl

/-! GAPFILL (R70 to R73). -/

theorem formatNCommand_gapfill : formatNCommand 0x2#4 .gapfill :=
  formatNCommand_of_readFormatN (fun w hop => by rw [decodeFields, hop]; rfl) fun _ => rfl

/-- GAPFILL leaves everything but the samples. -/
theorem gapfillAll_frame (s : State) :
    s.sameFills s.gapfillAll ∧ s.sameLp s.gapfillAll ∧ s.sameFd s.gapfillAll ∧ s.sameRate s.gapfillAll
      ∧ s.sameSignals s.gapfillAll ∧ s.sameErr s.gapfillAll ∧ s.sameOutside s.gapfillAll :=
  ⟨fun ch => by simp, fun ch => by simp, fun ch => by simp, ⟨rfl, rfl, rfl, rfl⟩, ⟨rfl, rfl⟩, ⟨rfl, rfl⟩,
    rfl, rfl, rfl, rfl⟩

/-- A sample of a row after GAPFILL (R70 to R72). -/
theorem gapfillAll_sample {s : State} (hs : s.wf) (ch : Chan) {i : Nat} (hi : i < s.cfg.spc) :
    s.gapfillAll.sample ch i =
      lastFixed s.cfg.spc (firstFixed s.cfg.spc (padded s.cfg.spc (s.chan ch).fill.toNat (s.sample ch))) i := by
  rw [State.sample, State.gapfillAll_chan]
  exact rowAt_gapfill (hs.2 ch).1 hi

/-- Settles O22: sample by sample, and the frame. -/
theorem gapfillPadsThenFixesEdges : Obligations.GapfillPadsThenFixesEdges :=
  ⟨formatNCommand_gapfill, fun s hs => ⟨_, exec_gapfill s, fun ch _ hi => gapfillAll_sample hs ch hi,
    fun ch => ((gapfillAll_wf hs).2 ch).1, gapfillAll_frame s⟩⟩

section
variable {spc : Nat} {P : Sample → Prop} {x : Nat → Sample}

/-- Padding brings in no value that is not in the first f places. -/
theorem padded_of_recorded {f : Nat} (hf : 0 < f) (hx : ∀ j, j < f → P (x j)) {i : Nat} (hi : i < spc) :
    P (padded spc f x i) := by
  unfold padded
  split
  case isTrue h => exact hx (f - 1) (by omega)
  case isFalse h => exact hx i (by omega)

/-- The first-sample test copies a sample of the row. -/
theorem firstFixed_of_row (hx : ∀ j, j < spc → P (x j)) {i : Nat} (hi : i < spc) : P (firstFixed spc x i) := by
  unfold firstFixed
  split
  case isTrue h => exact hx 1 h.1
  case isFalse => exact hx i hi

/-- The last-sample test copies a sample of the row. -/
theorem lastFixed_of_row (hx : ∀ j, j < spc → P (x j)) {i : Nat} (hi : i < spc) : P (lastFixed spc x i) := by
  unfold lastFixed
  split
  case isTrue h => exact hx (spc - 2) (by omega)
  case isFalse => exact hx i hi

end

/-- A sample that REC wrote to the row this cycle: one of its first FILL places holds it (R69, R73). -/
def State.hasRecorded (s : State) (ch : Chan) (v : Sample) : Prop :=
  ∃ j, j < (s.chan ch).fill.toNat ∧ v = s.sample ch j

/-- Padding and both edge tests only copy samples, and padding only the recorded ones (R73). -/
theorem gapfillAll_sample_recorded {s : State} (hs : s.wf) {ch : Chan} (hfill : 1 ≤ (s.chan ch).fill.toNat) {i : Nat}
    (hi : i < s.cfg.spc) : s.hasRecorded ch (s.gapfillAll.sample ch i) := by
  have recorded : ∀ j, j < (s.chan ch).fill.toNat → s.hasRecorded ch (s.sample ch j) := fun j hj => ⟨j, hj, rfl⟩
  rw [gapfillAll_sample hs ch hi]
  exact lastFixed_of_row (fun _ => firstFixed_of_row fun _ => padded_of_recorded hfill recorded) hi

/-- Settles O23: row by row and sample by sample. -/
theorem gapfilledRowsHoldRecordedValues : Obligations.GapfilledRowsHoldRecordedValues := fun s hs =>
  ⟨_, exec_gapfill s, fun ch hfill => ⟨((gapfillAll_wf hs).2 ch).1, fun _ hi => gapfillAll_sample_recorded hs hfill hi⟩⟩

/-! RATE (R74). -/

theorem formatNCommand_rate : formatNCommand 0x6#4 .rate :=
  formatNCommand_of_readFormatN (fun w hop => by rw [decodeFields, hop]; rfl) fun _ => rfl

theorem measureRate_of_unseeded {s : State} (h : s.rateSeeded = false) :
    s.measureRate = { s with prevTs := s.now, rateSeeded := true } := by
  simp [State.measureRate, h]

theorem measureRate_of_elapsed_nonpos {s : State} (h : s.rateSeeded = true) (hd : s.elapsed.toInt ≤ 0) :
    s.measureRate = { s with prevTs := s.now } := by
  rw [State.measureRate, if_pos h, if_neg (Int.not_lt.mpr hd)]

theorem measureRate_of_elapsed_pos {s : State} (h : s.rateSeeded = true) (hd : 0 < s.elapsed.toInt) :
    s.measureRate = { s with rate := rnd32 s.cfg.tps s.elapsed.toNat, rateValid := true, prevTs := s.now } := by
  rw [State.measureRate, if_pos h, if_pos hd]

/-- RATE leaves everything but the rate state. -/
theorem measureRate_frame (s : State) :
    s.sameRows s.measureRate ∧ s.sameFills s.measureRate ∧ s.sameLp s.measureRate ∧ s.sameFd s.measureRate
      ∧ s.sameSignals s.measureRate ∧ s.sameErr s.measureRate ∧ s.sameOutside s.measureRate :=
  ⟨fun ch => by simp, fun ch => by simp, fun ch => by simp, fun ch => by simp, ⟨by simp, by simp⟩, ⟨by simp, by simp⟩,
    by simp, by simp, by simp, by simp⟩

/-- A word that is positive as a signed number is that number unsigned. -/
theorem toInt_eq_toNat_of_toInt_pos {d : Timestamp} (h : 0 < d.toInt) : d.toInt = (d.toNat : Int) :=
  BitVec.toInt_eq_toNat_of_lt (BitVec.toInt_pos_iff.mp h.le)

/-- The reported rate is the exact quotient rounded once. -/
theorem rnd32_elapsed_nearest (tps : Nat) {d : Timestamp} (h : 0 < d.toInt) :
    nearestTo ((tps : ℚ) / (d.toInt : ℚ)) (rnd32 tps d.toNat) := by
  have hd := toInt_eq_toNat_of_toInt_pos h
  rw [hd, Int.cast_natCast]
  exact rnd32_nearest tps (by omega)

/-- Settles O24: no baseline yet, an interval of at most 0, a positive interval. -/
theorem rateMeasuresTheInterval : Obligations.RateMeasuresTheInterval := by
  refine ⟨formatNCommand_rate, fun s => ⟨_, exec_rate s, State.measureRate_prevTs s, State.measureRate_rateSeeded s,
    fun h => ?_, fun h hd => ?_, fun h hd => ?_, measureRate_frame s⟩⟩
  · rw [measureRate_of_unseeded h]
    exact ⟨rfl, rfl⟩
  · rw [measureRate_of_elapsed_nonpos h hd]
    exact ⟨rfl, rfl⟩
  · rw [measureRate_of_elapsed_pos h hd]
    exact ⟨rfl, rnd32_elapsed_nearest s.cfg.tps hd⟩

/-! PUBLISH and CYCLE (R77, R78). -/

theorem formatNCommand_publish : formatNCommand 0x7#4 .publish :=
  formatNCommand_of_readFormatN (fun w hop => by rw [decodeFields, hop]; rfl) fun _ => rfl

/-- PUBLISH leaves everything but READY and the fill indices. -/
theorem publishPacket_frame (s : State) :
    s.sameRows s.publishPacket ∧ s.sameLp s.publishPacket ∧ s.sameFd s.publishPacket ∧ s.sameRate s.publishPacket
      ∧ s.sameErr s.publishPacket ∧ s.sameOutside s.publishPacket :=
  ⟨fun ch => by simp, fun ch => by simp, fun ch => by simp, ⟨rfl, rfl, rfl, rfl⟩, ⟨rfl, rfl⟩, rfl, rfl, rfl, rfl⟩

/-- Settles O26: what PUBLISH writes, and its frame. -/
theorem publishSignalsAndReopensRows : Obligations.PublishSignalsAndReopensRows :=
  ⟨formatNCommand_publish, fun s => ⟨_, exec_publish s, State.publishPacket_ready s,
    fun ch => by simp, State.publishPacket_framePending s, publishPacket_frame s⟩⟩

theorem formatNCommand_cycle : formatNCommand 0x8#4 .cycle :=
  formatNCommand_of_readFormatN (fun w hop => by rw [decodeFields, hop]; rfl) fun _ => rfl

/-- Settles O27: the four commands in a row, none of which writes NOW or the draw counter before FILTER and RATE use them. -/
theorem cycleIsTheFourCommands : Obligations.CycleIsTheFourCommands :=
  ⟨formatNCommand_cycle, fun s => ⟨_, _, _, _, exec_gapfill s, exec_filter _, exec_rate _, exec_publish _,
    State.gapfillAll_now s, (State.filterAll_now _).trans (State.gapfillAll_now s), exec_cycle s⟩⟩

end Sys2Proof.Machine
end

section
/-! PROOF. The control commands (43_control.md R80 to R84): what NOP, FACK, RACK and START write and keep, and what the read
port gives after RESET. -/

namespace Sys2Proof.Machine

/-- A command whose word is an OP of format N above zeros and that is legal in every build (R49). -/
theorem formatNCommand_of_encode {op : BitVec 4} {i : Instr} (henc : encode i = op ++ 0#28)
    (hop : op ∈ [0x0#4, 0x2#4, 0x5#4, 0x6#4, 0x7#4, 0x8#4, 0x9#4, 0xA#4, 0xC#4, 0xF#4]) (hwf : ∀ cfg, i.wf cfg = true) :
    formatNCommand op i := by
  rintro cfg w rfl
  refine ⟨fun hz => ?_, fun hz => decode_illegalWord (.inr (.inl ⟨hop, hz⟩))⟩
  have hw : w = encode i := by
    rw [henc, ← hz]
    exact (word_formatN w).symm
  rw [hw]
  exact encodedCommandsDecodeBack cfg i (hwf cfg)

/-! NOP (R80). -/

/-- The zero word is the one word of NOP in every build (R52, R80). -/
theorem decode_nop_iff (cfg : Config) (w : Word) : decode cfg w = .ok .nop ↔ w = 0x00000000#32 :=
  ⟨fun h => (wf_and_encode_of_decode h).2.symm, fun h => h ▸ encodedCommandsDecodeBack cfg .nop rfl⟩

/-- Settles O14. -/
theorem nopChangesNothing : Obligations.NopChangesNothing :=
  ⟨formatNCommand_of_encode rfl (by decide) fun _ => rfl, decode_nop_iff, exec_nop⟩

/-! FACK and RACK (R81, R82). -/

/-- Writing the two flags, as FACK, RACK and START do, leaves everything else. -/
theorem flags_frame (s : State) (framePending ready : Bool) :
    let t := { s with framePending, ready }
    s.sameRows t ∧ s.sameFills t ∧ s.sameLp t ∧ s.sameFd t ∧ s.sameRate t ∧ s.sameErr t ∧ s.sameOutside t :=
  ⟨fun _ => rfl, fun _ => rfl, fun _ => rfl, fun _ => rfl, ⟨rfl, rfl, rfl, rfl⟩, ⟨rfl, rfl⟩, rfl, rfl, rfl, rfl⟩

/-- Settles O15: FACK writes FRAME_PENDING and leaves READY at its value. -/
theorem fackClearsFramePendingAlone : Obligations.FackClearsFramePendingAlone :=
  ⟨formatNCommand_of_encode rfl (by decide) fun _ => rfl, fun s => ⟨_, exec_fack s, State.clearFrame_framePending s,
    State.clearFrame_ready s, flags_frame s false s.ready⟩⟩

/-- Settles O16: RACK writes READY and leaves FRAME_PENDING at its value. -/
theorem rackClearsReadyAlone : Obligations.RackClearsReadyAlone :=
  ⟨formatNCommand_of_encode rfl (by decide) fun _ => rfl, fun s => ⟨_, exec_rack s, State.clearReady_ready s,
    State.clearReady_framePending s, flags_frame s s.framePending false⟩⟩

/-! START (R83). -/

/-- START is no writer of the samples, the filter state, ERR_ILL or anything outside the block. -/
theorem exec_start_frame {s t : State} (h : exec .start s = .next t) :
    s.sameRows t ∧ s.sameLp t ∧ s.sameFd t ∧ s.sameErr t ∧ s.sameOutside t :=
  ⟨exec_sameRows h (by simp) (by simp) (by simp) (by simp), exec_sameLp h (by simp) (by simp),
    exec_sameFd h (by simp) (by simp), exec_sameErr h rfl (by simp), exec_sameOutside h⟩

/-- Settles O17: the four clears of START, and its frame. -/
theorem startBeginsAFreshRun : Obligations.StartBeginsAFreshRun :=
  ⟨formatNCommand_of_encode rfl (by decide) fun _ => rfl, fun s => ⟨_, exec_start s, fun ch => by simp,
    rfl, rfl, rfl, rfl, rfl, rfl, exec_start_frame (exec_start s)⟩⟩

/-! The read port after RESET (R31, R84). -/

/-- The word holds build parameters, which no command writes (R26). -/
def Slot.isParameter : Slot → Bool
  | .config | .pattern => true
  | _ => false

theorem rowSlot_isParameter {f : Chan → Slot} (h : ∀ ch, (f ch).isParameter = false) (n : Nat) :
    (rowSlot n f).isParameter = false := by
  unfold rowSlot
  split
  case isTrue => exact h _
  case isFalse => rfl

/-- CONFIG and PATTERN are the only words of build parameters (R31). -/
theorem readSlot_isParameter {a : ReadAddr} (hconfig : a ≠ 0x001#12) (hpattern : a ≠ 0x003#12) (spc : Nat) :
    (readSlot spc a).isParameter = false := by
  have h1 : a.toNat ≠ 1 := fun h => hconfig (BitVec.eq_of_toNat_eq h)
  have h3 : a.toNat ≠ 3 := fun h => hpattern (BitVec.eq_of_toNat_eq h)
  simp only [readSlot]
  split_ifs
  · split
    case h_2 h => exact absurd h h1
    case h_4 h => exact absurd h h3
    all_goals rfl
  · exact rowSlot_isParameter (fun _ => rfl) _
  · rfl
  · exact rowSlot_isParameter (fun _ => rfl) _
  · rfl
  · exact rowSlot_isParameter (fun _ => rfl) _
  · rfl
  · exact rowSlot_isParameter (fun _ => rfl) _

/-- The samples of a row at reset (R28). -/
theorem sample_resetBlock (s : State) (ch : Chan) (i : Nat) : s.resetBlock.sample ch i = 0 := by
  rw [State.sample, State.resetBlock_chan]
  simp [rowAt, Channel.zero, List.getD]

/-- After RESET every word that holds the block's state is 0. -/
theorem slotWord_resetBlock (s : State) {slot : Slot} (h : slot.isParameter = false) :
    s.resetBlock.slotWord slot = 0 := by
  cases slot with
  | config | pattern => cases h
  | status => simp [State.slotWord, State.statusWord]
  | prevTsLo | prevTsHi => simp [State.slotWord]
  | rate | reserved => rfl
  | fill ch => simp [State.slotWord, Channel.zero]
  | lp ch sec reg =>
    simp only [State.slotWord, State.resetBlock_chan]
    cases sec <;> cases reg <;> rfl
  | fd ch reg =>
    simp only [State.slotWord, State.resetBlock_chan]
    cases reg <;> rfl
  | sample ch i => rw [State.slotWord, sample_resetBlock]; rfl

/-- Settles O13: an address other than the two of build parameters names a word of the block's state. -/
theorem readsAfterResetAreZero : Obligations.ReadsAfterResetAreZero := fun s _ =>
  ⟨_, exec_reset s, fun hconfig hpattern => slotWord_resetBlock s (readSlot_isParameter hconfig hpattern _),
    (rdWord_config _).trans (rdWord_config s).symm, (rdWord_pattern _).trans (rdWord_pattern s).symm⟩

end Sys2Proof.Machine
end

section
/-! PROOF. The illegal command and its record (60_exceptions.md R88): what it writes, that no step clears the record, and
that a clean record at the end of a run speaks for the whole run. -/

namespace Sys2Proof.Machine

/-- No command clears the record: RESET leaves it (log 4), and LP and FD on an illegal operand set it. -/
theorem exec_keeps_everIll {i : Instr} {s t : State} (h : exec i s = .next t) (hs : s.everIll = true) :
    t.everIll = true := by
  cases i with
  | lp ch => exact of_exec_lp (P := fun t => t.everIll = true) h (fun _ => hs) rfl
  | fd ch => exact of_exec_fd (P := fun t => t.everIll = true) h (fun _ _ => hs) rfl
  | nop | record | gapfill | filter | rate | publish | cycle | fack | rack | start | reset => cases h; simpa using hs

theorem step_keeps_everIll {s t : State} (h : step s = .next t) (hs : s.everIll = true) : t.everIll = true :=
  step_keeps (P := fun s => s.everIll = true) (fun _ _ _ => id) id (fun _ => rfl) exec_keeps_everIll h hs

/-- Settles O8: the state after IllegalCommand, and the record over every step. -/
theorem illegalCommandSetsErrIllAlone : Obligations.IllegalCommandSetsErrIllAlone := by
  refine ⟨fun s w rest e hev hdec => ?_, fun _ _ => step_keeps_everIll⟩
  rw [step_command hev, hdec]
  rfl

/-! Runs. -/

/-- A run goes on from the state that its first `k` steps reach. -/
theorem run_add {M : Host.Core} {k : Nat} {s t : M.State} (h : M.run k s = .next t) (m : Nat) :
    M.run (k + m) s = M.run m t := by
  induction k generalizing s with
  | zero => cases h; rw [Nat.zero_add]
  | succ k ih =>
    obtain ⟨u, hstep, hrun⟩ := run_succ h
    rw [Nat.succ_add, Host.Core.run, hstep]
    exact ih hrun

/-- What every step keeps, a run keeps. -/
theorem run_keeps {M : Host.Core} {P : M.State → Prop} (hstep : ∀ {s t : M.State}, M.step s = .next t → P s → P t)
    {n : Nat} {s t : M.State} (h : M.run n s = .next t) (hs : P s) : P t := by
  induction n generalizing s with
  | zero => cases h; exact hs
  | succ n ih =>
    obtain ⟨u, hu, hrun⟩ := run_succ h
    exact ih hrun (hstep hu hs)

/-- A run that ends clean began clean, for no step clears the record. -/
theorem clean_of_run {n : Nat} {s t : State} (h : Host.Core.run Sys2Proof.core n s = .next t) (ht : t.clean) :
    s.clean :=
  Bool.eq_false_iff.mpr fun hs =>
    Bool.eq_false_iff.mp ht (run_keeps (M := Sys2Proof.core) (P := fun s : State => s.everIll = true)
      step_keeps_everIll h hs)

/-- A step that leads to a clean state took no illegal word. -/
theorem not_illegalWord_of_step_clean {s t : State} (h : step s = .next t) (ht : t.clean) {w : Word} {rest : List Event}
    (hev : s.events = .command w :: rest) : ¬illegalWord s.cfg w := by
  intro hw
  cases (step_illegalWord hev hw).symm.trans h
  exact nomatch ht

/-- Settles O9: the rest of the run, from any state it steps on from, also ends clean. -/
theorem cleanEndMeansCleanRun : Obligations.CleanEndMeansCleanRun := by
  intro s u n hrun hu k t hk ht
  obtain ⟨m, rfl⟩ := Nat.exists_eq_add_of_lt hk
  have hrest : Host.Core.run Sys2Proof.core (m + 1) t = .next u := (run_add ht (m + 1)).symm.trans hrun
  obtain ⟨v, hstep, hend⟩ := run_succ hrest
  exact ⟨clean_of_run hrest hu, fun _ _ => not_illegalWord_of_step_clean hstep (clean_of_run hend hu)⟩

end Sys2Proof.Machine
end

section
/-! PROOF. The free NaN (92_eei_decisions.md D34, 93_implementation_defined.md U10): `nanBits` reaches every NaN pattern
and nothing else, so the bits of log 5 leave no NaN out. -/

namespace Sys2Proof.Machine

/-- 24 bits that begin with the sign of a NaN pattern and end with its fraction make that pattern. -/
theorem nanBits_sign_append_fraction {f : F32} (h : isNanPattern f) :
    nanBits (f.extractLsb' 31 1 ++ f.extractLsb' 0 23) = f := by
  obtain ⟨hexp, hfrac⟩ := h
  calc nanBits (f.extractLsb' 31 1 ++ f.extractLsb' 0 23)
    _ = f.extractLsb' 31 1 ++ f.extractLsb' 23 8 ++ f.extractLsb' 0 23 := by
      simp only [nanBits, BitVec.extractLsb'_append_eq_left, BitVec.extractLsb'_append_eq_right, if_neg hfrac, hexp]
    _ = f := by
      rw [BitVec.extractLsb'_append_extractLsb'_eq_extractLsb' (show 31 = 23 + 8 from rfl),
        BitVec.extractLsb'_append_extractLsb'_eq_extractLsb' (show 23 = 0 + 23 from rfl), BitVec.extractLsb'_eq_self]

/-- Settles O40: a NaN pattern comes from its own sign and fraction. -/
theorem everyNanPatternIsAdmitted : Obligations.EveryNanPatternIsAdmitted :=
  ⟨fun _ _ => isNanPattern_nanBits _,
    fun _ => ⟨fun h => ⟨_, nanBits_sign_append_fraction h⟩, by rintro ⟨p, rfl⟩; exact isNanPattern_nanBits p⟩⟩

end Sys2Proof.Machine
end
